-- ==== Sys2Proof/Word.lean ====
section
/-!
DEFINITION. The three widths the block works with (rules R5, R8, R48): a byte, a 6-bit symbol value and a
16-bit command word. All of them are unsigned.
-/
namespace Sys2Proof

/-- A data item on the byte paths: 8 bits (R5). -/
abbrev Byte := BitVec 8

/-- A symbol value: 6 bits, 0..63 (R5, R8). A value outside that range cannot be written in this type. -/
abbrev Sym6 := BitVec 6

/-- A command word: 16 bits, OPC at 15:8 and OPD at 7:0 (R48). -/
abbrev Word := BitVec 16

end Sys2Proof
end

