-- ==== Sys2Proof/Syntax.lean ====
section
/-!
DEFINITION. The nine commands of B64CMD-1 (rule R50). Each carries its operand byte OPD as the word holds it,
because what a nonzero operand of a `zero` form does depends on the state (rule R59): it is a matter of the
machine, not of the decoder.
-/
namespace Sys2Proof

/-- A command of the block: its name and its operand byte (R48, R50). -/
inductive Instr where
  /-- ENC.START, OPC 0x01, form `zero` (R74). -/
  | encStart (opd : Byte)
  /-- ENC.BYTE, OPC 0x02, form `imm8` (R75). -/
  | encByte (b : Byte)
  /-- ENC.END, OPC 0x03, form `zero` (R79). -/
  | encEnd (opd : Byte)
  /-- DEC.START, OPC 0x11, form `zero` (R84). -/
  | decStart (opd : Byte)
  /-- DEC.BYTE, OPC 0x12, form `imm8` (R85). -/
  | decByte (b : Byte)
  /-- DEC.END, OPC 0x13, form `zero` (R90). -/
  | decEnd (opd : Byte)
  /-- MAP.ENC, OPC 0x21, form `sym6` (R68). -/
  | mapEnc (v : Byte)
  /-- MAP.DEC, OPC 0x22, form `imm8` (R69). -/
  | mapDec (b : Byte)
  /-- STATUS, OPC 0x30, form `zero` (R99). -/
  | status (opd : Byte)
deriving DecidableEq, Repr

/-- The operand byte OPD of a command (R48). -/
def Instr.opd : Instr → Byte
  | .encStart x | .encByte x | .encEnd x | .decStart x | .decByte x | .decEnd x
  | .mapEnc x | .mapDec x | .status x => x

end Sys2Proof
end

