-- ==== Sys2Proof/WellFormed.lean ====
section
/-!
DEFINITION. Which operand values a command's form admits (rule R49). An ill-formed command still has an encoding
and a meaning: the machine answers it with a fault (rules R58 and R68).
-/
namespace Sys2Proof

/-- The three operand forms (R49). -/
inductive OperandForm where
  /-- `imm8`: an input byte, every value legal. -/
  | imm8
  /-- `sym6`: a symbol value, legal below 64. -/
  | sym6
  /-- `zero`: the operand must be 0x00. -/
  | zero
deriving DecidableEq, Repr

/-- The operand form of each command, the "OPD form" column of R50. -/
def Instr.form : Instr → OperandForm
  | .encByte _ | .decByte _ | .mapDec _ => .imm8
  | .mapEnc _ => .sym6
  | .encStart _ | .encEnd _ | .decStart _ | .decEnd _ | .status _ => .zero

/-- Which operand bytes a form admits (R49). -/
def OperandForm.admits : OperandForm → Byte → Bool
  | .imm8, _ => true
  | .sym6, x => decide (x.toNat < 64)
  | .zero, x => x == 0

/-- A command is well formed when its form admits its operand (R49). -/
def Instr.wellFormed (i : Instr) : Bool := i.form.admits i.opd

end Sys2Proof
end

