-- ==== Sys2Proof/Decode.lean ====
section
/-!
DEFINITION. The decoder and the encoder of the 16-bit command word, from the opcode map of rule R50. The decoder
is total: one of the 247 other OPC values is rejected by name (rule R51). What the block does with a rejected
word is in Machine/Port.lean.
-/
namespace Sys2Proof

/-- Why a word is no command. -/
inductive DecodeError where
  /-- OPC is none of the nine opcodes (R51). -/
  | illegalOpcode (opc : Byte)
deriving DecidableEq, Repr

/-- OPC, bits 15:8 of a command word (R48). -/
def Word.opc (w : Word) : Byte := w.extractLsb' 8 8

/-- OPD, bits 7:0 of a command word (R48). -/
def Word.opd (w : Word) : Byte := w.extractLsb' 0 8

/-- One row of the opcode map: an opcode and the command it names, given the operand byte. -/
structure OpcodeRow where
  opc : Byte
  command : Byte → Instr

/-- The opcode map of R50, in its order. -/
def opcodeMap : List OpcodeRow :=
  [ ⟨0x01, .encStart⟩, ⟨0x02, .encByte⟩, ⟨0x03, .encEnd⟩,
    ⟨0x11, .decStart⟩, ⟨0x12, .decByte⟩, ⟨0x13, .decEnd⟩,
    ⟨0x21, .mapEnc⟩, ⟨0x22, .mapDec⟩,
    ⟨0x30, .status⟩ ]

/-- The command a word stands for, or the reason it stands for none (R48, R50, R51). -/
def decode (w : Word) : Except DecodeError Instr :=
  match opcodeMap.find? (fun r => r.opc == Word.opc w) with
  | some r => .ok (r.command (Word.opd w))
  | none => .error (.illegalOpcode (Word.opc w))

/-- The opcode of each command, the "OPC" column of R50. -/
def Instr.opcode : Instr → Byte
  | .encStart _ => 0x01
  | .encByte _ => 0x02
  | .encEnd _ => 0x03
  | .decStart _ => 0x11
  | .decByte _ => 0x12
  | .decEnd _ => 0x13
  | .mapEnc _ => 0x21
  | .mapDec _ => 0x22
  | .status _ => 0x30

/-- The word of a command: OPC above OPD (R48). -/
def encode (i : Instr) : Word := i.opcode ++ i.opd

/-- What the decoder reads from a table word of `nbits` bits: the word's bits, every bit above them zero. A
command is one 16-bit word (R48), so a row of more than 16 bits is none of this table. -/
def decodeTableWord (nbits w : Nat) : Option Instr :=
  if nbits ≤ 16 then (decode (BitVec.ofNat 16 (w % 2 ^ nbits))).toOption else none

end Sys2Proof
end

