-- ==== Sys2Proof/Config.lean ====
section
/-!
DEFINITION. What the spec leaves to a realization (rule R6): the reservation hint and what a reset leaves of a held
command's appends, two draws with no law, and the smallest width a realization may give the DATA field. COUNT_WIDTH
itself is an argument (see Machine/Wire.lean).
-/
namespace Sys2Proof

/-- FREE VALUE. The reservation hint of the n-th START command: `none` if the block issues none, `some c` if it
issues `BufReserve(c)`. "Whether it issues the hint, and the count `n`, are a draw" (R39, parameter `reserveHint`
of R6, decision D14). It has no body, so no proof can see a value of it. Log entry 6, safe. -/
opaque Config.reserveHint : Nat → Option Nat

/-- FREE VALUE. How many of its appends the n-th held command that a reset cut short leaves in the Buffer: "BUF holds
**any value** among that command's prefixes of appends" (I10 of 93_implementation_defined.md, R121). A count beyond
the command's own leaves all of them. It has no body, so no proof can see a value of it. Log entry 9, safe. -/
opaque Config.resetKeeps : Nat → Nat

/-- The least COUNT_WIDTH a realization may have (R6, R101). -/
def Config.minCountWidth : Nat := 16

end Sys2Proof
end

