-- ==== Sys2Proof/Machine/State.lean ====
section
/-!
DEFINITION. What the machine holds: the block's registers (10_state.md R14), the external Buffer (R28, R47), the
command and response port with the host behind it (R32, R38, R52), and the values of all of it after reset (R31).
-/
namespace Sys2Proof.Machine

/-- MODE (R15): which call, if any, is open. Its numbering is `modeCode`. -/
inductive Mode where
  /-- No call is open. -/
  | idle
  /-- An encode call is open. -/
  | enc
  /-- A decode call is open and has not failed. -/
  | dec
  /-- A decode call is open and has failed. The Buffer has already been rolled back. -/
  | decFailed
deriving DecidableEq, Repr

/-- FAULT_CAUSE (R17, R107). Its numbering is `causeCode`. -/
inductive FaultCause where
  /-- NONE: the value while FAULT = 0, never raised. -/
  | noFault
  /-- OPC is not one of the nine opcodes (R51). -/
  | illegalOpcode
  /-- A legal OPC in a MODE its row does not allow (R57). -/
  | commandOutOfSequence
  /-- A nonzero operand where the form is `zero` (R58). -/
  | reservedOperand
  /-- MAP.ENC with an operand of 64 or more (R68). -/
  | symbolOutOfRange
  /-- Reserved for a realization that can hold an encoder phase of 3; no rule raises it (R111). -/
  | internalInvariant
deriving DecidableEq, Repr

/-- ERR (R18, R103): the kind of the most recent failed decode call. Its numbering is `errCode`. -/
inductive ErrKind where
  /-- NONE. -/
  | noError
  /-- "byte outside alphabet and not padding". -/
  | invalidCharacter
  /-- "non-padding symbol following a padding symbol". -/
  | misplacedPadding
  /-- "total valid+padding count not a multiple of 4 at end of input". -/
  | incompleteGroup
deriving DecidableEq, Repr

/-- RES, the result class of a response (R53). Its numbering is `resCode`; the value 3 is never produced. -/
inductive Res where
  /-- The command completed. -/
  | ok
  /-- A decode call has failed. -/
  | decfail
  /-- The block is faulted. -/
  | fault
deriving DecidableEq, Repr

/-- The response of a command, `(RES, CODE, DATA)` (R52). CODE has 3 bits and its meaning depends on RES (R54);
DATA is a natural number without a bound (D8). -/
structure Response where
  res : Res
  code : BitVec 3
  data : Nat
deriving DecidableEq, Repr

/-- A command that appends, as far as the block must remember it while the Buffer does not accept (R47). -/
inductive HeldCmd where
  /-- ENC.BYTE with its operand byte. -/
  | encByte (b : Byte)
  /-- ENC.END. -/
  | encEnd
  /-- DEC.BYTE with a Valid symbol before any padding, and the symbol's value. -/
  | decSymbol (v : Sym6)
deriving DecidableEq, Repr

/-- A held command (R47). -/
structure Hold where
  /-- All the bytes the command appends, in order. -/
  bytes : List Byte
  /-- The end of `bytes` that it has still to append, the refused byte first. -/
  left : List Byte
  /-- The command. -/
  cmd : HeldCmd
deriving DecidableEq, Repr

/-- One thing the host or the Buffer does at the block's boundary. -/
inductive HostEvent where
  /-- The host presents a command word (R32(3), R56). -/
  | command (w : Word)
  /-- The host resets the block (R120, R121). -/
  | reset
  /-- The host leaves the block alone for one step. -/
  | wait
  /-- The host makes its Buffer hold these bytes. It may do so only between calls (R44, R125). -/
  | putBuffer (bs : List Byte)
  /-- The Buffer becomes one that accepts an append while it holds fewer bytes than this; `none`: always (R47). -/
  | setCapacity (c : Option Nat)
deriving DecidableEq, Repr

/-- The Buffer's bytes with their positions (R28, R32): positions 0, 1, 2, ... in order, no gap. A position that
is not listed holds no byte, and reading it gives no value. -/
abbrev Memory := List Host.Cell

/-- The machine's state. -/
structure State where
  /-- MODE (R15). -/
  mode : Mode
  /-- FAULT (R16). -/
  fault : Bool
  /-- FAULT_CAUSE (R17). -/
  faultCause : FaultCause
  /-- ERR (R18). -/
  err : ErrKind
  /-- ENC_PHASE (R19): bytes consumed in the encode call, mod 3. -/
  encPhase : Fin 3
  /-- ENC_STASH (R20). -/
  encStash : Byte
  /-- DEC_PHASE (R21): Valid symbols accepted in the decode call, mod 4. -/
  decPhase : Fin 4
  /-- DEC_VALID (R22). -/
  decValid : Nat
  /-- DEC_PAD (R23). -/
  decPad : Nat
  /-- DEC_STASH (R24). -/
  decStash : Byte
  /-- OUT_COUNT (R25): bytes appended in the current call. -/
  outCount : Nat
  /-- MARK (R26): the Buffer cursor DEC.START found, as a natural (I16). -/
  mark : Nat
  /-- The command the Buffer makes the block hold, if any (R47). -/
  hold : Option Hold
  /-- BUF (R28). CURSOR is its length. -/
  mem : Memory
  /-- How many bytes the Buffer holds before it stops accepting appends (R47); `none`: it always accepts. -/
  capacity : Option Nat
  /-- One entry per START command executed: the reservation hint it issued, if it issued one (R36, R39). The
  model's own field; its length numbers the draws of `Config.reserveHint`. -/
  hints : List (Option Nat)
  /-- How many resets have met a held command. The model's own field; it numbers the draws of `Config.resetKeeps`. -/
  cuts : Nat
  /-- What the host has still to do at the port, the next thing first (R38). -/
  script : List HostEvent
  /-- The responses delivered, oldest first (R52). -/
  responses : List Response
deriving DecidableEq, Repr

/-- Reasons for a step to end the machine with a fault. There are NONE: the spec's faults are a register state in
which STATUS still executes (R108, R109), and its hold is a state the block may leave (R47), so every one of them
is a next state. The type has no constructor, and no step can raise one. -/
inductive Fault where
deriving DecidableEq, Repr

/-- Reasons for a step to have no meaning. -/
inductive Refusal where
  /-- Raised only by an arm of `exec` that has no meaning yet; safe. No arm is left so. -/
  | notModelled (mnemonic : String)
  /-- Raised when the host rewrites the Buffer inside an open call: "A run that breaks this is outside the spec, and
  the model gives it no meaning" (R125, I7); safe. -/
  | bufferNotOwned
  /-- Raised by a rollback whose MARK lies beyond the cursor: "a rollback to a MARK the host has invalidated is not
  defined" (R125, precondition of R35); safe. No reachable state raises it. -/
  | invalidMark
  /-- Raised by the encoder when it would call `sym` with a value of 64 or more, against the precondition of R65;
  safe. No reachable state raises it (R72). -/
  | symbolPrecondition
  /-- Raised by a realization of COUNT_WIDTH bits when a response's DATA does not fit (R55, I8); safe. -/
  | countTooWide
  /-- Raised by a realization whose COUNT_WIDTH is below 16, which "is outside this spec" (R101); safe. -/
  | countWidthTooSmall
deriving DecidableEq, Repr

/-- The state right after reset (R31, R120), with nothing presented and an empty Buffer that always accepts (the
Buffer is the host's and reset does not touch it, R121; log entries 1 to 6 and 9). -/
def State.reset : State where
  mode := .idle
  fault := false
  faultCause := .noFault
  err := .noError
  encPhase := 0
  encStash := 0
  decPhase := 0
  decValid := 0
  decPad := 0
  decStash := 0
  outCount := 0
  mark := 0
  hold := none
  mem := []
  capacity := none
  hints := []
  cuts := 0
  script := []
  responses := []

end Sys2Proof.Machine
end

