-- ==== Sys2Proof/Machine/Flags.lean ====
section
/-!
DEFINITION. The numbers the spec gives its named values, and the status word (rules R15, R18, R53, R54, R100,
R103, R107).
-/
namespace Sys2Proof.Machine

/-- MODE as two bits (R15). -/
def modeCode : Mode → BitVec 2
  | .idle => 0
  | .enc => 1
  | .dec => 2
  | .decFailed => 3

/-- ERR as two bits (R18, R103). -/
def errCode : ErrKind → BitVec 2
  | .noError => 0
  | .invalidCharacter => 1
  | .misplacedPadding => 2
  | .incompleteGroup => 3

/-- FAULT_CAUSE as three bits (R107). -/
def causeCode : FaultCause → BitVec 3
  | .noFault => 0
  | .illegalOpcode => 1
  | .commandOutOfSequence => 2
  | .reservedOperand => 3
  | .symbolOutOfRange => 4
  | .internalInvariant => 5

/-- RES as two bits (R53). -/
def resCode : Res → BitVec 2
  | .ok => 0
  | .decfail => 1
  | .fault => 2

/-- PAD_SEEN, bit 12 of the status word (R100): 1 when DEC_PAD is not 0. -/
def padSeen (s : State) : BitVec 1 := if s.decPad = 0 then 0 else 1

/-- PAD_MOD4, bits 14:13 of the status word (R100). -/
def padMod4 (s : State) : BitVec 2 := BitVec.ofNat 2 (s.decPad % 4)

/-- The status word (R100), written from bit 15 (reserved, 0) down to MODE at bits 1:0. -/
def statusWord (s : State) : BitVec 16 :=
  0#1 ++ padMod4 s ++ padSeen s ++ BitVec.ofNat 2 s.decPhase.val ++ BitVec.ofNat 2 s.encPhase.val
    ++ causeCode s.faultCause ++ BitVec.ofBool s.fault ++ errCode s.err ++ modeCode s.mode

/-- A successful response: RES = OK, CODE = 0 (R54). -/
def okResponse (data : Nat) : Response := ⟨.ok, 0, data⟩

/-- The response of a failed decode call: RES = DECFAIL, CODE the kind, DATA 0 (R54, R103). -/
def failResponse (kind : ErrKind) : Response := ⟨.decfail, (errCode kind).setWidth 3, 0⟩

/-- The response of a faulted block: RES = FAULT, CODE the cause, DATA 0 (R54, R108). -/
def faultResponse (cause : FaultCause) : Response := ⟨.fault, causeCode cause, 0⟩

end Sys2Proof.Machine
end

