-- ==== Sys2Proof/Machine/Ops.lean ====
section
/-!
DEFINITION. The named operations over the Buffer and the registers (rule R10): the Buffer's four operations
(R33 to R36) with the hold of R47, the delivery of a response (R52), and the three ways out of the ordinary:
the fault action (R108), the decode-failure action (R91) and reset (R120, R121).
-/
namespace Sys2Proof.Machine

/-- What a step of the block answers. -/
abbrev Out := Host.Outcome State Fault Refusal

/-- The Buffer's positions are 0, 1, 2, ... without a gap (R28): strictly rising, and none listed that holds no byte. -/
abbrev Memory.wf (m : Memory) : Prop := m.map (·.1) = List.range m.length

/-- The byte at a position, no value where the Buffer has none. The block itself never reads (R37). -/
def Memory.read : Memory → Nat → Option Byte
  | [], _ => none
  | c :: m, a => if c.1 = a then some c.2 else Memory.read m a

/-- The bytes of the Buffer in order: the spec's BUF (R28). -/
def Memory.bytes (m : Memory) : List Byte := m.map (·.2)

/-- One more byte at the cursor (R33). -/
def Memory.append (m : Memory) (v : Byte) : Memory := m ++ [(m.length, v)]

/-- The first `n` bytes (R35). -/
def Memory.truncate (m : Memory) (n : Nat) : Memory := m.take n

/-- The Buffer that holds the given bytes and no others. -/
def Memory.ofBytes (bs : List Byte) : Memory := (List.range bs.length).zip bs

/-- CURSOR (R28). -/
def State.cursor (s : State) : Nat := s.mem.length

/-- BUF (R28). -/
def State.buf (s : State) : List Byte := s.mem.bytes

/-- Deliver the response of the current command (R10, R52). -/
def State.respond (s : State) (r : Response) : State := { s with responses := s.responses ++ [r] }

/-- Whether the Buffer accepts one more byte (R47). -/
def State.accepts (s : State) : Bool :=
  match s.capacity with
  | none => true
  | some c => decide (s.cursor < c)

/-- `BufAppend(v)` on a Buffer that accepts it, with the increment of OUT_COUNT that goes with it (R33). -/
def State.bufAppend (s : State) (v : Byte) : State :=
  { s with mem := s.mem.append v, outCount := s.outCount + 1 }

/-- `BufMark()` (R34). -/
def State.bufMark (s : State) : Nat := s.cursor

/-- `BufReset(m)` (R35), `none` where its precondition `m <= CURSOR` fails. -/
def State.bufReset (s : State) (m : Nat) : Option State :=
  if m ≤ s.cursor then some { s with mem := s.mem.truncate m } else none

/-- The optional `BufReserve(n)` of a START command (R39): no effect on BUF or CURSOR (R36); the event is logged.
Whether it happens and with what count is the free value `Config.reserveHint` (log entry 6). -/
def State.maybeReserve (s : State) : State :=
  { s with hints := s.hints ++ [Config.reserveHint s.hints.length] }

/-- Append bytes in order until the Buffer does not accept one (R42(b), R47): what is left, and the state with
the appends so far done. -/
def appendAll : List Byte → State → List Byte × State
  | [], s => ([], s)
  | v :: vs, s => if s.accepts then appendAll vs (s.bufAppend v) else (v :: vs, s)

/-- The rest of a command's appends and then its register writes and response `done`; or the block holds in the
middle of the command, with the appends so far done and no response (R47). -/
def appendFrom (h : Hold) (done : State → State) (s : State) : State :=
  match appendAll h.left s with
  | ([], t) => done t
  | (v :: left, t) => { t with hold := some { h with left := v :: left } }

/-- A command that appends `vs`, from its first append (R47). -/
def appendThen (vs : List Byte) (cmd : HeldCmd) (done : State → State) (s : State) : State :=
  appendFrom ⟨vs, vs, cmd⟩ done s

/-- `raise Fault(cause)` (R108): FAULT, FAULT_CAUSE and the response, and nothing else. It is the block's taking of
an exception: nothing is saved, MODE stays, there is no handler (R113). -/
def State.raiseFault (s : State) (cause : FaultCause) : State :=
  { s with fault := true, faultCause := cause }.respond (faultResponse cause)

/-- What a word other than `0x3000` gets while FAULT = 1 (R109): the answer and no other change. -/
def State.answerFaulted (s : State) : State := s.respond (faultResponse s.faultCause)

/-- `decfail(kind)` (R91): roll the Buffer back to MARK, clear OUT_COUNT, record the kind, enter DEC_FAILED.
`none` where MARK is not a mark of this Buffer (R35). -/
def State.decfail (s : State) (kind : ErrKind) : Option State :=
  (s.bufReset s.mark).map fun t => { t with outCount := 0, err := kind, mode := .decFailed }

/-- How many of its bytes a held command has appended so far (R47). -/
def Hold.appended (h : Hold) : Nat := h.bytes.length - h.left.length

/-- What a reset does to the Buffer of a block that holds a command: of that command's appends any first part stays
(I10), how much of it is the free value `Config.resetKeeps` (log entry 9). With no command held, nothing (R121). -/
def State.cutHeld (s : State) : State :=
  match s.hold with
  | none => s
  | some h =>
    { s with
      mem := (h.bytes.take (Config.resetKeeps s.cuts)).foldl Memory.append (s.mem.truncate (s.cursor - h.appended)),
      cuts := s.cuts + 1 }

/-- Reset of the block (R120, R121): every register takes its reset value, a held command and an open call are
abandoned, the Buffer stays but for a held command's own appends (I10), and so does what belongs to the host. It is
the only way back from a fault (R109). -/
def State.resetBlock (s : State) : State :=
  { State.reset with
    mem := s.cutHeld.mem, cuts := s.cutHeld.cuts, capacity := s.capacity, hints := s.hints, script := s.script,
    responses := s.responses }

end Sys2Proof.Machine
end

