-- ==== Sys2Proof/Machine/Operands.lean ====
section
/-!
DEFINITION. The operand forms and the checks a command passes before it executes, in the order of rule R59.
-/
namespace Sys2Proof.Machine

/-- The fault a command's operand raises, if it raises one (R58, R68): a nonzero operand of a `zero` form, a
MAP.ENC operand of 64 or more. Every operand of an `imm8` form is legal (R49). -/
def operandFault : Instr → Option FaultCause
  | .encByte _ | .decByte _ | .mapDec _ => none
  | .mapEnc v => if v.toNat < 64 then none else some .symbolOutOfRange
  | .encStart x | .encEnd x | .decStart x | .decEnd x | .status x =>
    if x = 0 then none else some .reservedOperand

/-- The MODE values a command is legal in (R50). -/
def legalIn : Instr → Mode → Bool
  | .encStart _, m | .decStart _, m => m == .idle
  | .encByte _, m | .encEnd _, m => m == .enc
  | .decByte _, m | .decEnd _, m => m == .dec || m == .decFailed
  | .mapEnc _, _ | .mapDec _, _ | .status _, _ => true

/-- What the checks of R59 find for a legal opcode. -/
inductive Verdict where
  /-- FAULT = 1 and the word is not `0x3000`: answer with the recorded cause. -/
  | faulted
  /-- A check fails: raise this fault. -/
  | raises (cause : FaultCause)
  /-- Every check passes: execute the command's rule. -/
  | executes
deriving DecidableEq, Repr

/-- STATUS with operand 0, the word `0x3000`: the one command that executes while FAULT = 1 (R59, R109). -/
def executesWhileFaulted : Instr → Bool
  | .status x => x == 0
  | _ => false

/-- The checks of R59 in their order, for a word whose opcode is one of the nine: an existing fault, MODE, the
operand. -/
def verdict (i : Instr) (s : State) : Verdict :=
  if s.fault then
    if executesWhileFaulted i then .executes else .faulted
  else if legalIn i s.mode then
    match operandFault i with
    | some cause => .raises cause
    | none => .executes
  else .raises .commandOutOfSequence

/-- Run a command behind its checks (R59): `rule` is the command's own effect. -/
def gate (i : Instr) (rule : State → Out) (s : State) : Out :=
  match verdict i s with
  | .faulted => .next s.answerFaulted
  | .raises cause => .next (s.raiseFault cause)
  | .executes => rule s

end Sys2Proof.Machine
end

