-- ==== Sys2Proof/Machine/Alphabet.lean ====
section
/-!
DEFINITION. The alphabet mapper (40_alphabet_mapper.md): the constant table ALPHABET (R64), the two functions
`sym` and `cls` (R65, R66), and the commands MAP.ENC and MAP.DEC (R68, R69).
-/
namespace Sys2Proof.Machine

/-- The padding byte `=`, value 61 (R5, R64). -/
def paddingByte : Byte := 0x3D

/-- ALPHABET, the constant table of R64, one entry per 6-bit value: `A-Z`, `a-z`, `0-9`, `+`, `/`. -/
def alphabet : List Byte :=
  [0x41, 0x42, 0x43, 0x44, 0x45, 0x46, 0x47, 0x48, 0x49, 0x4A, 0x4B, 0x4C, 0x4D]
  ++ [0x4E, 0x4F, 0x50, 0x51, 0x52, 0x53, 0x54, 0x55, 0x56, 0x57, 0x58, 0x59, 0x5A]
  ++ [0x61, 0x62, 0x63, 0x64, 0x65, 0x66, 0x67, 0x68, 0x69, 0x6A, 0x6B, 0x6C, 0x6D]
  ++ [0x6E, 0x6F, 0x70, 0x71, 0x72, 0x73, 0x74, 0x75, 0x76, 0x77, 0x78, 0x79, 0x7A]
  ++ [0x30, 0x31, 0x32, 0x33, 0x34, 0x35, 0x36, 0x37, 0x38, 0x39]
  ++ [0x2B] ++ [0x2F]

/-- `sym(v)`, the source's `encodeSymbol` (R65). Its precondition `v < 64` is in the type. -/
def sym (v : Sym6) : Byte :=
  if v.toNat ≤ 25 then 0x41 + v.setWidth 8
  else if v.toNat ≤ 51 then 0x61 + (v.setWidth 8 - 26)
  else if v.toNat ≤ 61 then 0x30 + (v.setWidth 8 - 52)
  else if v.toNat = 62 then 0x2B
  else 0x2F

/-- `sym` of a value held in a byte, `none` where the precondition `v < 64` of R65 fails. -/
def symOf (x : Byte) : Option Byte :=
  if x.toNat < 64 then some (sym (x.setWidth 6)) else none

/-- `sym` of each value in order, `none` if one of them fails the precondition. -/
def symsOf : List Byte → Option (List Byte)
  | [] => some []
  | x :: xs =>
    match symOf x, symsOf xs with
    | some b, some bs => some (b :: bs)
    | _, _ => none

/-- DecodedByte (R12): a tagged value with three variants. -/
inductive DecodedByte where
  /-- One of the 64 alphabet bytes, with its value. -/
  | valid (v : Sym6)
  /-- A byte outside the 65 symbols. -/
  | invalid
  /-- The padding byte. -/
  | padding
deriving DecidableEq, Repr

/-- `cls(b)`, the source's `decodeByte` (R66). -/
def cls (b : Byte) : DecodedByte :=
  if b = paddingByte then .padding
  else if 0x41 ≤ b.toNat ∧ b.toNat ≤ 0x5A then .valid ((b - 0x41).setWidth 6)
  else if 0x61 ≤ b.toNat ∧ b.toNat ≤ 0x7A then .valid ((b - 0x61 + 26).setWidth 6)
  else if 0x30 ≤ b.toNat ∧ b.toNat ≤ 0x39 then .valid ((b - 0x30 + 52).setWidth 6)
  else if b = 0x2B then .valid 62
  else if b = 0x2F then .valid 63
  else .invalid

/-- `pack(d)`, the DATA of MAP.DEC (R70): a 2-bit tag above the 6-bit value. -/
def pack : DecodedByte → Byte
  | .valid v => v.setWidth 8
  | .invalid => 64
  | .padding => 128

/-- MAP.ENC past its checks (R68). `gate` lets only operands below 64 through, so `v[5:0]` is `v`. -/
def mapEncRule (v : Byte) (s : State) : Out :=
  .next (s.respond (okResponse (sym (v.setWidth 6)).toNat))

/-- MAP.ENC (R68). -/
def execMapEnc (v : Byte) (s : State) : Out := gate (.mapEnc v) (mapEncRule v) s

/-- MAP.DEC past its checks (R69). -/
def mapDecRule (b : Byte) (s : State) : Out :=
  .next (s.respond (okResponse (pack (cls b)).toNat))

/-- MAP.DEC (R69). -/
def execMapDec (b : Byte) (s : State) : Out := gate (.mapDec b) (mapDecRule b) s

end Sys2Proof.Machine
end

