-- ==== Sys2Proof/Machine/Decoder.lean ====
section
/-!
DEFINITION. The decoder (42_decoder.md): DEC.START, DEC.BYTE, DEC.END, with the rollback of R91 and the drain
mode of R92.
-/
namespace Sys2Proof.Machine

/-- DEC.START past its checks (R84). -/
def decStartRule (s : State) : Out :=
  .next ({ s with
    mark := s.bufMark, decPhase := 0, decValid := 0, decPad := 0, decStash := 0, outCount := 0,
    err := .noError, mode := .dec }.maybeReserve.respond (okResponse 0))

/-- DEC.START (R84). -/
def execDecStart (opd : Byte) (s : State) : Out := gate (.decStart opd) decStartRule s

/-- The byte a Valid symbol appends in each phase, none in phase 0 (R89). -/
def decEmit (v : Sym6) (s : State) : List Byte :=
  match s.decPhase with
  | 0 => []
  | 1 => [s.decStash ||| (v.setWidth 8 >>> 4)]
  | 2 => [s.decStash ||| (v.setWidth 8 >>> 2)]
  | 3 => [s.decStash ||| v.setWidth 8]

/-- The stash a Valid symbol leaves in each phase, cut to a byte (R24, R89). -/
def decStashAfter (v : Sym6) (p : Fin 4) : Byte :=
  match p with
  | 0 => v.setWidth 8 <<< 2
  | 1 => v.setWidth 8 <<< 4
  | 2 => v.setWidth 8 <<< 6
  | 3 => 0

/-- How many bytes a Valid symbol appends: the `k` of R89. -/
def decAppended (p : Fin 4) : Nat := if p = 0 then 0 else 1

/-- The register writes and the response of DEC.BYTE with a Valid symbol after its append (R89). -/
def decSymbolDone (v : Sym6) (s : State) : State :=
  { s with
    decStash := decStashAfter v s.decPhase, decValid := s.decValid + 1,
    decPhase := s.decPhase + 1 }.respond (okResponse (decAppended s.decPhase))

/-- DEC.BYTE on a byte that makes the call fail (R86, R88): decfail, then the response with the kind. -/
def decByteFails (kind : ErrKind) (s : State) : Out :=
  match s.decfail kind with
  | some t => .next (t.respond (failResponse kind))
  | none => .refused .invalidMark

/-- DEC.BYTE in a call that has not failed: the case distinction of R85. -/
def decByteOpen (b : Byte) (s : State) : Out :=
  match cls b with
  | .invalid => decByteFails .invalidCharacter s
  | .padding => .next ({ s with decPad := s.decPad + 1 }.respond (okResponse 0))
  | .valid v =>
    if s.decPad ≠ 0 then decByteFails .misplacedPadding s
    else .next (appendThen (decEmit v s) (.decSymbol v) (decSymbolDone v) s)

/-- DEC.BYTE past its checks (R85): drained in DEC_FAILED (R92). -/
def decByteRule (b : Byte) (s : State) : Out :=
  if s.mode = .decFailed then .next (s.respond (failResponse s.err)) else decByteOpen b s

/-- DEC.BYTE (R85). -/
def execDecByte (b : Byte) (s : State) : Out := gate (.decByte b) (decByteRule b) s

/-- DEC.END past its checks (R90). -/
def decEndRule (s : State) : Out :=
  if s.mode = .decFailed then .next ({ s with mode := .idle }.respond (failResponse s.err))
  else if (s.decValid + s.decPad) % 4 ≠ 0 then
    match s.decfail .incompleteGroup with
    | some t => .next ({ t with mode := .idle }.respond (failResponse .incompleteGroup))
    | none => .refused .invalidMark
  else .next ({ s with mode := .idle }.respond (okResponse s.outCount))

/-- DEC.END (R90). -/
def execDecEnd (opd : Byte) (s : State) : Out := gate (.decEnd opd) decEndRule s

end Sys2Proof.Machine
end

