-- ==== Sys2Proof/Machine/Encoder.lean ====
section
/-!
DEFINITION. The encoder (41_encoder.md): ENC.START, ENC.BYTE, ENC.END. A command that appends is written in two
parts, the bytes it appends and the register writes and response that follow them, because the Buffer may make
the block hold between them (R47).
-/
namespace Sys2Proof.Machine

/-- ENC.START past its checks (R74). -/
def encStartRule (s : State) : Out :=
  .next ({ s with mode := .enc, encPhase := 0, encStash := 0, outCount := 0 }.maybeReserve.respond (okResponse 0))

/-- ENC.START (R74). -/
def execEncStart (opd : Byte) (s : State) : Out := gate (.encStart opd) encStartRule s

/-- The symbols ENC.BYTE appends in each phase (R76, R77, R78), `none` where `sym` would be called against its
precondition, which no reachable state does (R72). -/
def encSymbols (b : Byte) (s : State) : Option (List Byte) :=
  match s.encPhase with
  | 0 => symsOf [b >>> 2]
  | 1 => symsOf [s.encStash ||| (b >>> 4)]
  | 2 => symsOf [s.encStash ||| (b >>> 6), b &&& 0x3F]

/-- The register writes and the response of ENC.BYTE after its appends (R75 to R78). The stash of phase 0 is the
byte's low 2 bits (90_conflicts.md C1). -/
def encByteDone (b : Byte) (s : State) : State :=
  match s.encPhase with
  | 0 => { s with encStash := (b &&& 0x03) <<< 4, encPhase := 1 }.respond (okResponse 1)
  | 1 => { s with encStash := (b &&& 0x0F) <<< 2, encPhase := 2 }.respond (okResponse 1)
  | 2 => { s with encStash := 0, encPhase := 0 }.respond (okResponse 2)

/-- ENC.BYTE past its checks (R75). -/
def encByteRule (b : Byte) (s : State) : Out :=
  match encSymbols b s with
  | some vs => .next (appendThen vs (.encByte b) (encByteDone b) s)
  | none => .refused .symbolPrecondition

/-- ENC.BYTE (R75). -/
def execEncByte (b : Byte) (s : State) : Out := gate (.encByte b) (encByteRule b) s

/-- The tail ENC.END appends: nothing, or the last symbol and the padding (R79). -/
def encTail (s : State) : Option (List Byte) :=
  match s.encPhase with
  | 0 => some []
  | 1 => (symsOf [s.encStash]).map (· ++ [paddingByte, paddingByte])
  | 2 => (symsOf [s.encStash]).map (· ++ [paddingByte])

/-- The register writes and the response of ENC.END after its appends (R79). -/
def encEndDone (s : State) : State :=
  { s with encPhase := 0, encStash := 0, mode := .idle }.respond (okResponse s.outCount)

/-- ENC.END past its checks (R79). -/
def encEndRule (s : State) : Out :=
  match encTail s with
  | some vs => .next (appendThen vs .encEnd encEndDone s)
  | none => .refused .symbolPrecondition

/-- ENC.END (R79). -/
def execEncEnd (opd : Byte) (s : State) : Out := gate (.encEnd opd) encEndRule s

end Sys2Proof.Machine
end

