-- ==== Sys2Proof/Machine/Status.lean ====
section
/-!
DEFINITION. STATUS (43_status.md), the one command that executes while the block is faulted.
-/
namespace Sys2Proof.Machine

/-- STATUS past its checks (R99): the status word of R100. -/
def statusRule (s : State) : Out := .next (s.respond (okResponse (statusWord s).toNat))

/-- STATUS (R99). -/
def execStatus (opd : Byte) (s : State) : Out := gate (.status opd) statusRule s

end Sys2Proof.Machine
end

