-- ==== Sys2Proof/Machine/Dispatch.lean ====
section
/-!
DEFINITION. One arm per command, each a direct call of the command's meaning (rule R50).
-/
namespace Sys2Proof.Machine

def exec (i : Instr) (s : State) : Host.Outcome State Fault Refusal :=
  match i with
  | .encStart opd => Sys2Proof.Machine.execEncStart opd s
  | .encByte b => Sys2Proof.Machine.execEncByte b s
  | .encEnd opd => Sys2Proof.Machine.execEncEnd opd s
  | .decStart opd => Sys2Proof.Machine.execDecStart opd s
  | .decByte b => Sys2Proof.Machine.execDecByte b s
  | .decEnd opd => Sys2Proof.Machine.execDecEnd opd s
  | .mapEnc v => Sys2Proof.Machine.execMapEnc v s
  | .mapDec b => Sys2Proof.Machine.execMapDec b s
  | .status opd => Sys2Proof.Machine.execStatus opd s

end Sys2Proof.Machine
end

