-- ==== Sys2Proof/Machine/Port.lean ====
section
/-!
DEFINITION. The command and response port (R32(3), R56): taking the next command word, finishing a held command
(R47), and what the host and the Buffer do at the block's boundary (R44, R47, R120, R125).
-/
namespace Sys2Proof.Machine

/-- A word whose opcode is none of the nine (R51, R59): the recorded fault answers it, or it raises IllegalOpcode. -/
def illegalOpcode (s : State) : State :=
  if s.fault then s.answerFaulted else s.raiseFault .illegalOpcode

/-- The block takes a command word and runs the procedure of R59 on it. -/
def acceptWord (w : Word) (s : State) : Out :=
  match decode w with
  | .ok i => exec i s
  | .error _ => .next (illegalOpcode s)

/-- What a held command does after its last append. -/
def heldDone : HeldCmd → State → State
  | .encByte b => encByteDone b
  | .encEnd => encEndDone
  | .decSymbol v => decSymbolDone v

/-- A held command goes on as far as the Buffer lets it (R47). If the Buffer still does not accept, the state is
as it was: the block takes no step and delivers no response. -/
def resume (h : Hold) (s : State) : State :=
  appendFrom h (heldDone h.cmd) { s with hold := none }

/-- The host makes its Buffer hold `bs` (R44): refused while a call is open (R125, I7). -/
def putBuffer (bs : List Byte) (s : State) : Out :=
  if s.mode = .idle ∧ s.hold = none then .next { s with mem := Memory.ofBytes bs }
  else .refused .bufferNotOwned

/-- The block with nothing done to it from outside: a held command goes on, else it waits with its state held
(R47, R119). -/
def runHeld (s : State) : State :=
  match s.hold with
  | some h => resume h s
  | none => s

/-- The next thing at the port. A command is taken only when no command is held, that is after the response of
the one before it (R56, R128). Reset and the Buffer's own changes do not wait. -/
def advance (s : State) : Out :=
  match s.script with
  | [] => .next (runHeld s)
  | .wait :: rest => .next (runHeld { s with script := rest })
  | .reset :: rest => .next { s with script := rest }.resetBlock
  | .setCapacity c :: rest => .next { s with script := rest, capacity := c }
  | .putBuffer bs :: rest => putBuffer bs { s with script := rest }
  | .command w :: rest =>
    match s.hold with
    | some h => .next (resume h s)
    | none => acceptWord w { s with script := rest }

end Sys2Proof.Machine
end

