-- ==== Sys2Proof/Machine/Step.lean ====
section
/-!
DEFINITION. One step of the machine (three outcomes: a next state, a fault, a refusal), and where it takes its
next command from. What a step does is in Machine/Port.lean.
-/
namespace Sys2Proof.Machine

/-- One step: the next thing the port has (R56), see `advance`. -/
def step (s : State) : Host.Outcome State Fault Refusal := advance s

/-- `s` with the command word `w` next at the port, and no command held before it. The word's bits above `nbits`
are zero; a command is one 16-bit word (R48). -/
def State.withFetchWord (s : State) (nbits w : Nat) : State :=
  { s with script := .command (BitVec.ofNat 16 (w % 2 ^ nbits)) :: s.script, hold := none }

end Sys2Proof.Machine
end

