-- ==== Sys2Proof/Machine/Assembler.lean ====
section
/-!
DEFINITION. The assembler notation (rule R61) and the pseudo-instructions (rule R62). It is notation for command
words; the block itself sees words only.
-/
namespace Sys2Proof.Machine

/-- `enc.bytes b0, ..., bn-1` (R62). -/
def encBytes (bs : List Byte) : List Instr := bs.map .encByte

/-- `dec.str "s"` (R62), the string as its bytes. -/
def decStr (bs : List Byte) : List Instr := bs.map .decByte

/-- `encode b0, ..., bn-1` (R62): the source's encode call. -/
def encodeCall (bs : List Byte) : List Instr := .encStart 0 :: (encBytes bs ++ [.encEnd 0])

/-- `decode "s"` (R62): the source's decode call. -/
def decodeCall (bs : List Byte) : List Instr := .decStart 0 :: (decStr bs ++ [.decEnd 0])

/-- A token of an assembler line: a mnemonic, an immediate, a string or a comma. -/
inductive Token where
  | name (cs : List Char)
  | imm (b : Byte)
  | str (bs : List Byte)
  | comma
deriving DecidableEq, Repr

/-- The byte a character literal stands for, its ASCII code (R61, R64). -/
def asciiByte (c : Char) : Option Byte :=
  if c.toNat < 128 then some (BitVec.ofNat 8 c.toNat) else none

/-- The value of a digit in the given base. -/
def digitValue (base : Nat) (c : Char) : Option Nat :=
  let d := if '0' ≤ c ∧ c ≤ '9' then c.toNat - 48
    else if 'a' ≤ c ∧ c ≤ 'f' then c.toNat - 87
    else if 'A' ≤ c ∧ c ≤ 'F' then c.toNat - 55
    else base
  if d < base then some d else none

/-- The value of a row of digits, most significant first. -/
def digitsValue (base : Nat) : Nat → List Char → Option Nat
  | n, [] => some n
  | n, c :: cs =>
    match digitValue base c with
    | some d => digitsValue base (base * n + d) cs
    | none => none

/-- A number as an 8-bit immediate. -/
def immediate (n : Option Nat) : Option Token :=
  match n with
  | some n => if n < 256 then some (.imm (BitVec.ofNat 8 n)) else none
  | none => none

/-- A run of letters, digits and dots is a hexadecimal or decimal immediate, or a mnemonic, which is
case-insensitive (R61). -/
def wordToken : List Char → Option Token
  | '0' :: 'x' :: c :: cs => immediate (digitsValue 16 0 (c :: cs))
  | c :: cs =>
    if '0' ≤ c ∧ c ≤ '9' then immediate (digitsValue 10 0 (c :: cs))
    else some (.name ((c :: cs).map Char.toLower))
  | [] => none

/-- Where the reader stands in a line; `acc` is what it has of the current token, backwards. -/
inductive LexState where
  | between
  | inWord (acc : List Char)
  | charOpen
  | charEscape
  | charClose (b : Byte)
  | inString (acc : List Byte)
  | stringEscape (acc : List Byte)
  | stringHex (acc : List Byte) (first : Option Nat)
deriving DecidableEq, Repr

/-- The byte of an escape `\n` or `\r` (R61, R62). That every other one, a backslash itself among them, stands for
nothing is the model's choice (log entry 20). -/
def escapeByte (c : Char) : Option Byte :=
  if c = 'n' then some 0x0A else if c = 'r' then some 0x0D else none

/-- Whether a character belongs to a mnemonic or a number. -/
def isWordChar (c : Char) : Bool := c.isAlphanum || c == '.'

/-- What a character between tokens does: the next place, and the token it is, if it is one by itself. `none`
where it begins nothing. -/
def lexBetween (c : Char) : Option (LexState × List Token) :=
  if c = ' ' ∨ c = '\t' then some (.between, [])
  else if c = ',' then some (.between, [.comma])
  else if c = '\'' then some (.charOpen, [])
  else if c = '"' then some (.inString [], [])
  else if isWordChar c then some (.inWord [c], [])
  else none

/-- One character of a line: the next place and the tokens it completes. `none` where the line is no assembler.
DESIGN CHOICE (log entry 20): R61 and R62 give the escapes `\n`, `\r` and, in strings, `\xHH`, and do not say how a
backslash itself or any other escape is written; a line with one is rejected. -/
def lexChar : LexState → Char → Option (LexState × List Token)
  | .between, c => lexBetween c
  | .inWord acc, c =>
    if isWordChar c then some (.inWord (c :: acc), [])
    else
      match wordToken acc.reverse, lexBetween c with
      | some t, some (st, ts) => some (st, t :: ts)
      | _, _ => none
  | .charOpen, c =>
    if c = '\\' then some (.charEscape, []) else (asciiByte c).map fun b => (.charClose b, [])
  | .charEscape, c => (escapeByte c).map fun b => (.charClose b, [])
  | .charClose b, c => if c = '\'' then some (.between, [.imm b]) else none
  | .inString acc, c =>
    if c = '"' then some (.between, [.str acc.reverse])
    else if c = '\\' then some (.stringEscape acc, [])
    else (asciiByte c).map fun b => (.inString (b :: acc), [])
  | .stringEscape acc, c =>
    if c = 'x' then some (.stringHex acc none, [])
    else (escapeByte c).map fun b => (.inString (b :: acc), [])
  | .stringHex acc none, c => (digitValue 16 c).map fun d => (.stringHex acc (some d), [])
  | .stringHex acc (some h), c =>
    (digitValue 16 c).map fun d => (.inString (BitVec.ofNat 8 (16 * h + d) :: acc), [])

/-- Whether a semicolon at this place begins a comment (R61): inside a literal it does not (log entry 10). -/
def commentMayStart : LexState → Bool
  | .between | .inWord _ => true
  | _ => false

/-- What the end of the line, or the comment that ends it, completes. -/
def lexEnd : LexState → Option (List Token)
  | .between => some []
  | .inWord acc => (wordToken acc.reverse).map fun t => [t]
  | _ => none

/-- The tokens of a line (R61). -/
def lex : LexState → List Char → Option (List Token)
  | st, [] => lexEnd st
  | st, c :: cs =>
    if c = ';' ∧ commentMayStart st then lexEnd st
    else
      match lexChar st c with
      | some (st', ts) => (lex st' cs).map (ts ++ ·)
      | none => none

/-- Immediates separated by commas, at least one. -/
def immediateList : List Token → Option (List Byte)
  | [.imm b] => some [b]
  | .imm b :: .comma :: ts => (immediateList ts).map (b :: ·)
  | _ => none

/-- Immediates separated by commas, or none at all (R62: n = 0 expands to no command). -/
def immediates : List Token → Option (List Byte)
  | [] => some []
  | ts => immediateList ts

/-- The mnemonics of the commands with their operand (R61). -/
def commandMnemonics : List (List Char × (Byte → Instr)) :=
  [ ("enc.start".toList, .encStart), ("enc.byte".toList, .encByte), ("enc.end".toList, .encEnd),
    ("dec.start".toList, .decStart), ("dec.byte".toList, .decByte), ("dec.end".toList, .decEnd),
    ("map.enc".toList, .mapEnc), ("map.dec".toList, .mapDec), ("status".toList, .status) ]

/-- One command line: the operand of a `zero` form may be left out and is then 0; written out, it is the OPD of
the word (`status 0x01` is 0x3001 in program P5 of 95_test_vectors.md; log entry 10). -/
def commandLine (build : Byte → Instr) : List Token → Option (List Instr)
  | [] => if (build 0).form = .zero then some [build 0] else none
  | [.imm b] => some [build b]
  | _ => none

/-- The commands an assembler line stands for (R61, R62): a command, a pseudo-instruction, or nothing. -/
def assembleTokens : List Token → Option (List Instr)
  | [] => some []
  | .name m :: ts =>
    match commandMnemonics.find? (fun r => r.1 == m) with
    | some r => commandLine r.2 ts
    | none =>
      if m = "enc.bytes".toList then (immediates ts).map encBytes
      else if m = "encode".toList then (immediates ts).map encodeCall
      else
        match ts with
        | [.str bs] =>
          if m = "dec.str".toList then some (decStr bs)
          else if m = "decode".toList then some (decodeCall bs)
          else none
        | _ => none
  | _ => none

/-- Assemble one line (R61, R62), `none` where it is not in the notation. -/
def assembleLine (line : List Char) : Option (List Instr) := (lex .between line).bind assembleTokens

end Sys2Proof.Machine
end

