-- ==== Sys2Proof/Machine/Wire.lean ====
section
/-!
DEFINITION. A realization with a finite COUNT_WIDTH (rules R6, R55, R101): its response word, and its step, which
the spec refuses where a count does not fit.
-/
namespace Sys2Proof.Machine

/-- Whether a response fits a DATA field of `W` bits (R55). -/
def fitsWidth (W : Nat) (r : Response) : Bool := decide (r.data < 2 ^ W)

/-- The response word of `W + 5` bits (R55): DATA at `[W-1:0]`, CODE at `[W+2:W]`, RES at `[W+4:W+3]`; `none`
where DATA does not fit. -/
def wire (W : Nat) (r : Response) : Option (BitVec (W + 5)) :=
  if fitsWidth W r then
    some (BitVec.ofNat (W + 5) (r.data + r.code.toNat * 2 ^ W + (resCode r.res).toNat * 2 ^ (W + 3)))
  else none

/-- The responses a step from `s` to `t` has delivered. -/
def delivered (s t : State) : List Response := t.responses.drop s.responses.length

/-- One step of a realization whose COUNT_WIDTH is `W`: the model's step, refused where a delivered count does not
fit (R55, I8), and refused throughout for a width the spec leaves outside (R101). -/
def stepAtWidth (W : Nat) (s : State) : Out :=
  if W < Config.minCountWidth then .refused .countWidthTooSmall
  else
    match step s with
    | .next t => if (delivered s t).all (fitsWidth W) then .next t else .refused .countTooWide
    | .fault r => .fault r
    | .refused r => .refused r

end Sys2Proof.Machine
end

