-- ==== Sys2Proof/Safety.lean ====
section
/-!
DEFINITION. The terms claims use: the invariant of rule R29 with what the model adds to it, the launch state and
the well-ended state of rules R132 and R133, a run of commands, and the reference functions E, D and the failure
of a call (rules R73, R83, R93) written on whole sequences, without phases or stashes.
-/
namespace Sys2Proof.Machine

/-- What holds at every boundary between steps: (a) to (e) of R29, the fault registers of R16, R17 and R111, and
what a held command implies: its call is open, it has something left to append, and what it has appended is the end
of the Buffer. In a decode call OUT_COUNT is the number of bytes above MARK, which is R29(f) and
gives the `MARK <= CURSOR` of R29(d). -/
structure Inv (s : State) : Prop where
  mem_wf : s.mem.wf
  stash_lt : s.encStash.toNat < 64
  stash_phase0 : s.encPhase = 0 → s.encStash = 0
  stash_phase1 : s.encPhase = 1 → s.encStash &&& 0x0F = 0
  stash_phase2 : s.encPhase = 2 → s.encStash &&& 0x03 = 0
  decPhase_eq : s.decPhase.val = s.decValid % 4
  dec_cursor : s.mode = .dec → s.cursor = s.mark + s.outCount
  failed_cursor : s.mode = .decFailed → s.cursor = s.mark ∧ s.outCount = 0 ∧ s.err ≠ .noError
  cause_noFault : s.faultCause = .noFault ↔ s.fault = false
  cause_reachable : s.faultCause ≠ .internalInvariant
  hold_open : ∀ h, s.hold = some h → s.fault = false ∧
    match h.cmd with
    | .encByte _ | .encEnd => s.mode = .enc
    | .decSymbol _ => s.mode = .dec
  hold_bytes : ∀ h, s.hold = some h → h.left ≠ [] ∧
    ∃ base done, s.buf = base ++ done ∧ h.bytes = done ++ h.left

/-- The block may open a call: not faulted, no call open, no command held, and a Buffer that always accepts. -/
structure Ready (s : State) : Prop where
  fault : s.fault = false
  mode : s.mode = .idle
  hold : s.hold = none
  capacity : s.capacity = none

/-- A run ends well (R132): FAULT = 0, MODE = IDLE, no command held, and nothing left to do. -/
structure WellEnded (s : State) : Prop where
  fault : s.fault = false
  mode : s.mode = .idle
  hold : s.hold = none
  script : s.script = []

/-- The Buffer accepts `n` more bytes (R47). -/
def State.roomFor (s : State) (n : Nat) : Prop := ∀ c, s.capacity = some c → s.cursor + n ≤ c

/-- The command `i`, executed at `s`, appends the bytes `vs`, and `cmd` is what the block must remember of it should
the Buffer stop it (R47): ENC.BYTE and ENC.END in an encode call (R75, R79), DEC.BYTE of a symbol before any padding in
a decode call that has not failed (R89). -/
def State.appends (s : State) (i : Instr) (vs : List Byte) (cmd : HeldCmd) : Prop :=
  s.fault = false ∧
    ((∃ b, i = .encByte b ∧ s.mode = .enc ∧ cmd = .encByte b ∧ encSymbols b s = some vs) ∨
     (i = .encEnd 0 ∧ s.mode = .enc ∧ cmd = .encEnd ∧ encTail s = some vs) ∨
     (∃ b v, i = .decByte b ∧ s.mode = .dec ∧ s.decPad = 0 ∧ cls b = .valid v ∧ cmd = .decSymbol v ∧
       decEmit v s = vs))

/-- `s` after the fault action with this cause, whose code is `code` (R107, R108), and nothing else. -/
def State.afterFault (s : State) (cause : FaultCause) (code : BitVec 3) : State :=
  { s with fault := true, faultCause := cause, responses := s.responses ++ [⟨.fault, code, 0⟩] }

/-- The launch state (R133): the reset state with a Buffer of the host's and the commands it will present. -/
def State.launch (buf : List Byte) (script : List HostEvent) : State :=
  { State.reset with mem := Memory.ofBytes buf, script := script }

/-- `s` with these commands next at the port, before what the host would do anyway. -/
def State.presenting (s : State) (is : List Instr) : State :=
  { s with script := is.map (fun i => .command (encode i)) ++ s.script }

/-- Present commands and run the machine one step for each. -/
def runCommands (is : List Instr) (s : State) : Out :=
  Host.Core.run Sys2Proof.core is.length (s.presenting is)

/-- The function E of R73: base64 text of a byte sequence, group by group (R5, R40). A group is read as one number
of 24 bits and cut into 6-bit values, the most significant first; a short last group is filled with zero bits, and
the text with padding. -/
def encodeText : List Byte → List Byte
  | [] => []
  | [a] =>
    let g : BitVec 12 := a ++ 0#4
    [sym (g.extractLsb' 6 6), sym (g.extractLsb' 0 6), paddingByte, paddingByte]
  | [a, b] =>
    let g : BitVec 18 := a ++ b ++ 0#2
    [sym (g.extractLsb' 12 6), sym (g.extractLsb' 6 6), sym (g.extractLsb' 0 6), paddingByte]
  | a :: b :: c :: rest =>
    let g : BitVec 24 := a ++ b ++ c
    sym (g.extractLsb' 18 6) :: sym (g.extractLsb' 12 6) :: sym (g.extractLsb' 6 6) :: sym (g.extractLsb' 0 6)
      :: encodeText rest

/-- The function D of R94: the bytes of a row of symbol values, group by group. Bits that no whole byte takes are
dropped (R96). -/
def decodeSymbols : List Sym6 → List Byte
  | [] => []
  | [_] => []
  | [v, w] =>
    let g : BitVec 12 := v ++ w
    [g.extractLsb' 4 8]
  | [v, w, x] =>
    let g : BitVec 18 := v ++ w ++ x
    [g.extractLsb' 10 8, g.extractLsb' 2 8]
  | v :: w :: x :: y :: rest =>
    let g : BitVec 24 := v ++ w ++ x ++ y
    g.extractLsb' 16 8 :: g.extractLsb' 8 8 :: g.extractLsb' 0 8 :: decodeSymbols rest

/-- The values of the Valid symbols of a text, in order. -/
def symbolsOf (text : List Byte) : List Sym6 :=
  text.filterMap fun b =>
    match cls b with
    | .valid v => some v
    | _ => none

/-- The failure the first offending byte of a text causes (R93); `padded` says whether padding came before. -/
def firstOffence (padded : Bool) : List Byte → Option ErrKind
  | [] => none
  | b :: bs =>
    match cls b with
    | .invalid => some .invalidCharacter
    | .padding => firstOffence true bs
    | .valid _ => if padded then some .misplacedPadding else firstOffence padded bs

/-- How a decode call over a text fails, `none` if it succeeds (R93). -/
def callFailure (text : List Byte) : Option ErrKind :=
  match firstOffence false text with
  | some kind => some kind
  | none => if text.length % 4 = 0 then none else some .incompleteGroup

end Sys2Proof.Machine
end

