-- ==== Sys2Proof/Certificates/Slice0/Obligations.lean ====
section
/-!
DEFINITION. The statements for the provers. Each docstring names the rule of spec/ it formalises. A statement whose
conclusion is `exec i s = .next {...}` writes the whole next state, so it says what the command leaves unchanged too.
-/
open Sys2Proof Sys2Proof.Machine

/-! ## Reset, faults, the order of the checks -/

/-- A reset sets every register to its value of R31 from any state, in or out of a call; the Buffer keeps its bytes,
so an open call is abandoned and not rolled back (R121). Where a command is held, what follows is the model's choice:
the reset acts at once (log entry 8) and drops the command (log entry 3), and of that command's own appends a first
part stays whose length is a draw (log entry 9, after I10 of spec/93_implementation_defined.md); every byte before
them stays. Nothing is known of `Config.resetKeeps`, so this holds whatever the draw is. -/
def Obligations.ResetSetsEveryRegisterAndKeepsTheBuffer : Prop :=
  ∀ (s : State) (rest : List HostEvent), s.script = .reset :: rest →
    ∃ t, step s = .next t ∧ t =
      { mode := .idle, fault := false, faultCause := .noFault, err := .noError, encPhase := 0, encStash := 0,
        decPhase := 0, decValid := 0, decPad := 0, decStash := 0, outCount := 0, mark := 0, hold := none,
        mem := t.mem, capacity := s.capacity, hints := s.hints, cuts := t.cuts, script := rest,
        responses := s.responses } ∧
      (s.hold = none → t.mem = s.mem ∧ t.cuts = s.cuts) ∧
      (∀ (h : Hold) (base done : List Byte), s.hold = some h → s.buf = base ++ done → h.bytes = done ++ h.left →
        t.buf = base ++ h.bytes.take (Config.resetKeeps s.cuts) ∧ t.cuts = s.cuts + 1)

/-- R31 at the model's own reset state. That the Buffer is then empty and always accepts is the model's choice (log
entries 1 and 2), and it is not claimed here. -/
def Obligations.ResetStateHasTheStatedValues : Prop :=
  modeCode State.reset.mode = 0 ∧ State.reset.fault = false ∧ causeCode State.reset.faultCause = 0 ∧
  errCode State.reset.err = 0 ∧ State.reset.encPhase = 0 ∧ State.reset.encStash = 0 ∧ State.reset.decPhase = 0 ∧
  State.reset.decValid = 0 ∧ State.reset.decPad = 0 ∧ State.reset.decStash = 0 ∧ State.reset.outCount = 0 ∧
  State.reset.mark = 0 ∧ statusWord State.reset = 0x0000

/-- R109, R110: while FAULT = 1 a word other than 0x3000 answers with the recorded cause and changes no register
and no Buffer byte; 0x3000 answers OK; only reset clears FAULT, and a faulted state does not end a run well. -/
def Obligations.FaultedBlockAnswersAndChangesNothing : Prop :=
  ∀ s : State, s.fault = true →
    (∀ (w : Word) (rest : List HostEvent), s.hold = none → s.script = .command w :: rest →
      (w ≠ 0x3000 → step s = .next
        { s with script := rest, responses := s.responses ++ [⟨.fault, causeCode s.faultCause, 0⟩] }) ∧
      (w = 0x3000 → step s = .next
        { s with script := rest, responses := s.responses ++ [⟨.ok, 0, (statusWord s).toNat⟩] })) ∧
    (∀ t, step s = .next t → (∀ rest, s.script ≠ .reset :: rest) → t.fault = true ∧ t.faultCause = s.faultCause) ∧
    ¬ WellEnded s

/-- R51: the decoder takes exactly the nine opcodes, 247 others are illegal, and an illegal one with any operand
raises IllegalOpcode and has no other effect. (While FAULT = 1 it does not, see R109.) -/
def Obligations.IllegalOpcodeRaisesItsFaultOnly : Prop :=
  let nine : List Byte := [0x01, 0x02, 0x03, 0x11, 0x12, 0x13, 0x21, 0x22, 0x30]
  (∀ w : Word, (∃ i, decode w = .ok i) ↔ w.extractLsb' 8 8 ∈ nine) ∧
  ((List.range 256).filter (fun n => !nine.contains (BitVec.ofNat 8 n))).length = 247 ∧
  ∀ (s : State) (w : Word) (rest : List HostEvent), s.fault = false → s.hold = none → s.script = .command w :: rest →
    w.extractLsb' 8 8 ∉ nine → step s = .next ({ s with script := rest }.afterFault .illegalOpcode 1)

/-- R57: a command in a MODE its row does not list raises CommandOutOfSequence and nothing else; MAP.ENC, MAP.DEC
and STATUS never do, and leave every register but FAULT and FAULT_CAUSE, and the whole Buffer, unchanged. -/
def Obligations.CallBracketingIsEnforced : Prop :=
  (∀ (s : State) (i : Instr), s.fault = false →
    (match i with
      | .encStart _ | .decStart _ => s.mode ≠ .idle
      | .encByte _ | .encEnd _ => s.mode ≠ .enc
      | .decByte _ | .decEnd _ => s.mode ≠ .dec ∧ s.mode ≠ .decFailed
      | .mapEnc _ | .mapDec _ | .status _ => False) →
    exec i s = .next (s.afterFault .commandOutOfSequence 2)) ∧
  (∀ (s t : State) (i : Instr), (∃ x, i = .mapEnc x ∨ i = .mapDec x ∨ i = .status x) → exec i s = .next t →
    t = { s with fault := t.fault, faultCause := t.faultCause, responses := t.responses } ∧
    (∀ a, t.mem.read a = s.mem.read a) ∧ (s.fault = false → t.faultCause ≠ .commandOutOfSequence ∨ t.fault = false))

/-- R58, R59, R60: the checks of a command word, in their order. -/
def Obligations.ChecksRunInTheStatedOrder : Prop :=
  ∀ (s : State) (w : Word) (rest : List HostEvent), s.hold = none → s.script = .command w :: rest →
    let s' : State := { s with script := rest }
    (s.fault = true →
      (w = 0x3000 → step s = statusRule s') ∧
      (w ≠ 0x3000 → step s = .next
        { s' with responses := s.responses ++ [⟨.fault, causeCode s.faultCause, 0⟩] })) ∧
    (s.fault = false →
      ((∀ i, decode w ≠ .ok i) → step s = .next (s'.afterFault .illegalOpcode 1)) ∧
      (∀ i, decode w = .ok i →
        (legalIn i s.mode = false → step s = .next (s'.afterFault .commandOutOfSequence 2)) ∧
        (legalIn i s.mode = true → i.form = .zero → i.opd ≠ 0 →
          step s = .next (s'.afterFault .reservedOperand 3)) ∧
        (legalIn i s.mode = true → i.form = .sym6 → 64 ≤ i.opd.toNat →
          step s = .next (s'.afterFault .symbolOutOfRange 4)) ∧
        (legalIn i s.mode = true → i.wellFormed = true →
          step s =
            match i with
            | .encStart _ => encStartRule s'
            | .encByte b => encByteRule b s'
            | .encEnd _ => encEndRule s'
            | .decStart _ => decStartRule s'
            | .decByte b => decByteRule b s'
            | .decEnd _ => decEndRule s'
            | .mapEnc v => mapEncRule v s'
            | .mapDec b => mapDecRule b s'
            | .status _ => statusRule s')))

/-! ## Decoding -/

/-- Every command, with every operand byte, is read back from its own word. -/
def Obligations.DecodeOfEncodeIsTheCommand : Prop := ∀ i : Instr, decode (encode i) = .ok i

/-- Every word the decoder takes is the word of the command it stands for: no two words mean the same command. -/
def Obligations.EncodeOfDecodeIsTheWord : Prop := ∀ (w : Word) (i : Instr), decode w = .ok i → encode i = w

/-- Words written out from R48 and R61, one for each command. -/
def Obligations.SpecWordsDecode : Prop :=
  decode 0b00000001_00000000#16 = .ok (.encStart 0) ∧ decode 0b00000010_01001101#16 = .ok (.encByte 0x4D) ∧
  decode 0b00000011_00000000#16 = .ok (.encEnd 0) ∧ decode 0b00010001_00000000#16 = .ok (.decStart 0) ∧
  decode 0b00010010_01010100#16 = .ok (.decByte 0x54) ∧ decode 0b00010011_00000000#16 = .ok (.decEnd 0) ∧
  decode 0b00100001_00111111#16 = .ok (.mapEnc 63) ∧ decode 0b00100010_01110101#16 = .ok (.mapDec 0x75) ∧
  decode 0b00110000_00000000#16 = .ok (.status 0)

/-- R62: the pseudo-instructions, over every operand list and string, and the escapes of a string. -/
def Obligations.PseudoInstructionsExpand : Prop :=
  (∀ bs : List Byte,
    let list : List Token := (bs.map .imm).intersperse .comma
    assembleTokens (.name "enc.bytes".toList :: list) = some (bs.map .encByte) ∧
    assembleTokens (.name "encode".toList :: list) = some (.encStart 0 :: (bs.map .encByte ++ [.encEnd 0])) ∧
    assembleTokens [.name "dec.str".toList, .str bs] = some (bs.map .decByte) ∧
    assembleTokens [.name "decode".toList, .str bs] = some (.decStart 0 :: (bs.map .decByte ++ [.decEnd 0]))) ∧
  (∀ (acc : List Byte) (cs : List Char),
    lex (.inString acc) ('\\' :: 'n' :: cs) = lex (.inString (0x0A :: acc)) cs ∧
    lex (.inString acc) ('\\' :: 'r' :: cs) = lex (.inString (0x0D :: acc)) cs ∧
    ∀ (h l : Char) (a b : Nat), digitValue 16 h = some a → digitValue 16 l = some b →
      lex (.inString acc) ('\\' :: 'x' :: h :: l :: cs) = lex (.inString (BitVec.ofNat 8 (16 * a + b) :: acc)) cs)

/-- A step with a command next at the port and no command held takes the word away and runs the decoded command. -/
def Obligations.StepRunsTheDecodedCommand : Prop :=
  ∀ (s : State) (w : Word) (rest : List HostEvent) (i : Instr), s.hold = none → s.script = .command w :: rest →
    decode w = .ok i → step s = exec i { s with script := rest }

/-! ## Encoder commands -/

/-- R74: ENC.START. The entry it adds to `hints` is the model's choice: the optional reservation hint as a free value
and its log (log entry 6). -/
def Obligations.EncStartOpensAnEncodeCall : Prop :=
  ∀ s : State, s.fault = false →
    (s.mode = .idle → exec (.encStart 0) s = .next
      { s with
        mode := .enc, encPhase := 0, encStash := 0, outCount := 0,
        hints := s.hints ++ [Config.reserveHint s.hints.length], responses := s.responses ++ [⟨.ok, 0, 0⟩] }) ∧
    (∀ x, s.mode ≠ .idle → exec (.encStart x) s = .next (s.afterFault .commandOutOfSequence 2)) ∧
    (∀ x, s.mode = .idle → x ≠ 0 → exec (.encStart x) s = .next (s.afterFault .reservedOperand 3))

/-- R76: ENC.BYTE in phase 0 emits the byte's top 6 bits and stashes its low 2 bits at bits 5:4. -/
def Obligations.EncByteInPhase0 : Prop :=
  ∀ (s : State) (b : Byte), s.fault = false → s.mode = .enc → s.encPhase = 0 → s.roomFor 1 →
    exec (.encByte b) s = .next
      { s with
        mem := s.mem ++ [(s.cursor, sym (b.extractLsb' 2 6))], outCount := s.outCount + 1,
        encStash := 0#2 ++ b.extractLsb' 0 2 ++ 0#4, encPhase := 1, responses := s.responses ++ [⟨.ok, 0, 1⟩] }

/-- R77: ENC.BYTE in phase 1. -/
def Obligations.EncByteInPhase1 : Prop :=
  ∀ (s : State) (b : Byte), s.fault = false → s.mode = .enc → s.encPhase = 1 → s.encStash.toNat < 64 → s.roomFor 1 →
    exec (.encByte b) s = .next
      { s with
        mem := s.mem ++ [(s.cursor, sym ((s.encStash ||| (b >>> 4)).setWidth 6))], outCount := s.outCount + 1,
        encStash := (b &&& 0x0F) <<< 2, encPhase := 2, responses := s.responses ++ [⟨.ok, 0, 1⟩] }

/-- R78: ENC.BYTE in phase 2 completes the group with two symbols. -/
def Obligations.EncByteInPhase2 : Prop :=
  ∀ (s : State) (b : Byte), s.fault = false → s.mode = .enc → s.encPhase = 2 → s.encStash.toNat < 64 → s.roomFor 2 →
    exec (.encByte b) s = .next
      { s with
        mem := s.mem ++ [(s.cursor, sym ((s.encStash ||| (b >>> 6)).setWidth 6)), (s.cursor + 1, sym (b.setWidth 6))],
        outCount := s.outCount + 2, encStash := 0, encPhase := 0, responses := s.responses ++ [⟨.ok, 0, 2⟩] }

/-- R79: ENC.END pads by the phase and closes the call. -/
def Obligations.EncEndPadsAndCloses : Prop :=
  ∀ s : State, s.fault = false →
    (s.mode = .enc → s.encPhase = 0 → exec (.encEnd 0) s = .next
      { s with
        encPhase := 0, encStash := 0, mode := .idle, responses := s.responses ++ [⟨.ok, 0, s.outCount⟩] }) ∧
    (s.mode = .enc → s.encPhase = 1 → s.encStash.toNat < 64 → s.roomFor 3 → exec (.encEnd 0) s = .next
      { s with
        mem := s.mem ++ [(s.cursor, sym (s.encStash.setWidth 6)), (s.cursor + 1, 0x3D), (s.cursor + 2, 0x3D)],
        outCount := s.outCount + 3, encPhase := 0, encStash := 0, mode := .idle,
        responses := s.responses ++ [⟨.ok, 0, s.outCount + 3⟩] }) ∧
    (s.mode = .enc → s.encPhase = 2 → s.encStash.toNat < 64 → s.roomFor 2 → exec (.encEnd 0) s = .next
      { s with
        mem := s.mem ++ [(s.cursor, sym (s.encStash.setWidth 6)), (s.cursor + 1, 0x3D)],
        outCount := s.outCount + 2, encPhase := 0, encStash := 0, mode := .idle,
        responses := s.responses ++ [⟨.ok, 0, s.outCount + 2⟩] }) ∧
    (∀ x, s.mode ≠ .enc → exec (.encEnd x) s = .next (s.afterFault .commandOutOfSequence 2)) ∧
    (∀ x, s.mode = .enc → x ≠ 0 → exec (.encEnd x) s = .next (s.afterFault .reservedOperand 3))

/-- What the encoder's commands leave unchanged, on every path to a next state: ERR, the decoder's registers, MARK,
and every Buffer byte outside the run of positions the command appends to, which starts at CURSOR. -/
def Obligations.EncoderFrame : Prop :=
  (∀ (s t : State) (x : Byte), exec (.encStart x) s = .next t →
    t = { s with
      mode := t.mode, fault := t.fault, faultCause := t.faultCause, encPhase := t.encPhase, encStash := t.encStash,
      outCount := t.outCount, hints := t.hints, responses := t.responses } ∧
    ∀ a, t.mem.read a = s.mem.read a) ∧
  (∀ (s t : State) (b : Byte), exec (.encByte b) s = .next t →
    t = { s with
      fault := t.fault, faultCause := t.faultCause, encPhase := t.encPhase, encStash := t.encStash,
      outCount := t.outCount, hold := t.hold, mem := t.mem, responses := t.responses } ∧
    ∀ a, a < s.cursor ∨ s.cursor + ((encSymbols b s).getD []).length ≤ a → t.mem.read a = s.mem.read a) ∧
  (∀ (s t : State) (x : Byte), exec (.encEnd x) s = .next t →
    t = { s with
      mode := t.mode, fault := t.fault, faultCause := t.faultCause, encPhase := t.encPhase, encStash := t.encStash,
      outCount := t.outCount, hold := t.hold, mem := t.mem, responses := t.responses } ∧
    ∀ a, a < s.cursor ∨ s.cursor + ((encTail s).getD []).length ≤ a → t.mem.read a = s.mem.read a)

/-- R72: in the states of R29(a) and (b) the encoder never calls `sym` with a value of 64 or more, and no encoder
command raises SymbolOutOfRange. -/
def Obligations.EncoderKeepsThePreconditionOfSym : Prop :=
  ∀ s : State, s.encStash.toNat < 64 →
    (∀ b : Byte, (b >>> 2).toNat < 64 ∧ (s.encStash ||| (b >>> 4)).toNat < 64 ∧
      (s.encStash ||| (b >>> 6)).toNat < 64 ∧ (b &&& 0x3F).toNat < 64) ∧
    (∀ b, encSymbols b s ≠ none) ∧ encTail s ≠ none ∧
    (∀ i t, (∃ x, i = .encStart x ∨ i = .encByte x ∨ i = .encEnd x) → s.fault = false → exec i s = .next t →
      t.fault = true → t.faultCause ≠ .symbolOutOfRange)

/-! ## Decoder commands -/

/-- R84: DEC.START. The entry it adds to `hints` is the model's choice: the optional reservation hint as a free value
and its log (log entry 6). -/
def Obligations.DecStartOpensADecodeCall : Prop :=
  ∀ s : State, s.fault = false →
    (s.mode = .idle → exec (.decStart 0) s = .next
      { s with
        mark := s.buf.length, decPhase := 0, decValid := 0, decPad := 0, decStash := 0, outCount := 0,
        err := .noError, mode := .dec, hints := s.hints ++ [Config.reserveHint s.hints.length],
        responses := s.responses ++ [⟨.ok, 0, 0⟩] }) ∧
    (∀ x, s.mode ≠ .idle → exec (.decStart x) s = .next (s.afterFault .commandOutOfSequence 2)) ∧
    (∀ x, s.mode = .idle → x ≠ 0 → exec (.decStart x) s = .next (s.afterFault .reservedOperand 3))

/-- R86: an Invalid byte fails the call with InvalidCharacter, whatever DEC_PAD holds, and rolls back to MARK. -/
def Obligations.DecByteInvalidFailsAndRollsBack : Prop :=
  ∀ (s : State) (b : Byte), s.fault = false → s.mode = .dec → s.mark ≤ s.cursor → cls b = .invalid →
    exec (.decByte b) s = .next
      { s with
        mem := s.mem.take s.mark, outCount := 0, err := .invalidCharacter, mode := .decFailed,
        responses := s.responses ++ [⟨.decfail, 1, 0⟩] }

/-- R87: a padding byte is counted and nothing else happens. -/
def Obligations.DecBytePaddingIsCounted : Prop :=
  ∀ (s : State) (b : Byte), s.fault = false → s.mode = .dec → cls b = .padding →
    exec (.decByte b) s = .next
      { s with decPad := s.decPad + 1, responses := s.responses ++ [⟨.ok, 0, 0⟩] }

/-- R88: a Valid symbol after padding fails the call with MisplacedPadding and rolls back to MARK. -/
def Obligations.DecByteAfterPaddingFailsAndRollsBack : Prop :=
  ∀ (s : State) (b : Byte) (v : Sym6), s.fault = false → s.mode = .dec → s.mark ≤ s.cursor → cls b = .valid v →
    s.decPad ≠ 0 →
    exec (.decByte b) s = .next
      { s with
        mem := s.mem.take s.mark, outCount := 0, err := .misplacedPadding, mode := .decFailed,
        responses := s.responses ++ [⟨.decfail, 2, 0⟩] }

/-- R89: a Valid symbol before any padding, by phase. -/
def Obligations.DecByteValidByPhase : Prop :=
  ∀ (s : State) (b : Byte) (v : Sym6), s.fault = false → s.mode = .dec → cls b = .valid v → s.decPad = 0 →
    (s.decPhase = 0 → exec (.decByte b) s = .next
      { s with
        decStash := v ++ 0#2, decValid := s.decValid + 1, decPhase := 1,
        responses := s.responses ++ [⟨.ok, 0, 0⟩] }) ∧
    (s.decPhase = 1 → s.roomFor 1 → exec (.decByte b) s = .next
      { s with
        mem := s.mem ++ [(s.cursor, s.decStash ||| (v.setWidth 8 >>> 4))], outCount := s.outCount + 1,
        decStash := v.extractLsb' 0 4 ++ 0#4, decValid := s.decValid + 1, decPhase := 2,
        responses := s.responses ++ [⟨.ok, 0, 1⟩] }) ∧
    (s.decPhase = 2 → s.roomFor 1 → exec (.decByte b) s = .next
      { s with
        mem := s.mem ++ [(s.cursor, s.decStash ||| (v.setWidth 8 >>> 2))], outCount := s.outCount + 1,
        decStash := v.extractLsb' 0 2 ++ 0#6, decValid := s.decValid + 1, decPhase := 3,
        responses := s.responses ++ [⟨.ok, 0, 1⟩] }) ∧
    (s.decPhase = 3 → s.roomFor 1 → exec (.decByte b) s = .next
      { s with
        mem := s.mem ++ [(s.cursor, s.decStash ||| v.setWidth 8)], outCount := s.outCount + 1,
        decStash := 0, decValid := s.decValid + 1, decPhase := 0,
        responses := s.responses ++ [⟨.ok, 0, 1⟩] })

/-- R92: in DEC_FAILED a byte is consumed and changes no register and no Buffer byte. -/
def Obligations.DecByteIsDrainedAfterAFailure : Prop :=
  ∀ (s : State) (b : Byte), s.fault = false → s.mode = .decFailed →
    exec (.decByte b) s = .next
      { s with responses := s.responses ++ [⟨.decfail, (errCode s.err).setWidth 3, 0⟩] }

/-- R90: DEC.END. -/
def Obligations.DecEndChecksTheTotalAndCloses : Prop :=
  ∀ s : State, s.fault = false →
    (s.mode = .decFailed → exec (.decEnd 0) s = .next
      { s with
        mode := .idle, responses := s.responses ++ [⟨.decfail, (errCode s.err).setWidth 3, 0⟩] }) ∧
    (s.mode = .dec → (s.decValid + s.decPad) % 4 ≠ 0 → s.mark ≤ s.cursor → exec (.decEnd 0) s = .next
      { s with
        mem := s.mem.take s.mark, outCount := 0, err := .incompleteGroup, mode := .idle,
        responses := s.responses ++ [⟨.decfail, 3, 0⟩] }) ∧
    (s.mode = .dec → (s.decValid + s.decPad) % 4 = 0 → exec (.decEnd 0) s = .next
      { s with mode := .idle, responses := s.responses ++ [⟨.ok, 0, s.outCount⟩] }) ∧
    (∀ x, s.mode ≠ .dec → s.mode ≠ .decFailed →
      exec (.decEnd x) s = .next (s.afterFault .commandOutOfSequence 2)) ∧
    (∀ x, s.mode = .dec ∨ s.mode = .decFailed → x ≠ 0 →
      exec (.decEnd x) s = .next (s.afterFault .reservedOperand 3))

/-- What the decoder's commands leave unchanged, on every path to a next state: the encoder's registers, and every
Buffer byte but the one position a Valid symbol appends to (CURSOR) and, where the call fails, the bytes from MARK
on, which are discarded. -/
def Obligations.DecoderFrame : Prop :=
  (∀ (s t : State) (x : Byte), exec (.decStart x) s = .next t →
    t = { s with
      mode := t.mode, fault := t.fault, faultCause := t.faultCause, err := t.err, decPhase := t.decPhase,
      decValid := t.decValid, decPad := t.decPad, decStash := t.decStash, outCount := t.outCount, mark := t.mark,
      hints := t.hints, responses := t.responses } ∧
    ∀ a, t.mem.read a = s.mem.read a) ∧
  (∀ (s t : State) (b : Byte), exec (.decByte b) s = .next t →
    t = { s with
      mode := t.mode, fault := t.fault, faultCause := t.faultCause, err := t.err, decPhase := t.decPhase,
      decValid := t.decValid, decPad := t.decPad, decStash := t.decStash, outCount := t.outCount, hold := t.hold,
      mem := t.mem, responses := t.responses } ∧
    if s.fault = false ∧ s.mode = .dec ∧ (cls b = .invalid ∨ (cls b ≠ .padding ∧ s.decPad ≠ 0)) then
      s.mem.wf → ∀ a, (a < s.mark → t.mem.read a = s.mem.read a) ∧ (s.mark ≤ a → t.mem.read a = none)
    else
      ∀ a, a < s.cursor ∨
        s.cursor + (match cls b with | .valid v => (decEmit v s).length | _ => 0) ≤ a →
        t.mem.read a = s.mem.read a) ∧
  (∀ (s t : State) (x : Byte), exec (.decEnd x) s = .next t →
    t = { s with
      mode := t.mode, fault := t.fault, faultCause := t.faultCause, err := t.err, outCount := t.outCount,
      mem := t.mem, responses := t.responses } ∧
    if s.fault = false ∧ s.mode = .dec ∧ x = 0 ∧ (s.decValid + s.decPad) % 4 ≠ 0 then
      s.mem.wf → ∀ a, (a < s.mark → t.mem.read a = s.mem.read a) ∧ (s.mark ≤ a → t.mem.read a = none)
    else ∀ a, t.mem.read a = s.mem.read a)

/-! ## Mapper and status -/

/-- R64: the table of the five ranges, without a repeat, is what `sym` gives. -/
def Obligations.AlphabetIsTheFiveRanges : Prop :=
  alphabet.length = 64 ∧ alphabet.Nodup ∧ (∀ v : Sym6, alphabet[v.toNat]? = some (sym v)) ∧
  (∀ v : Sym6, v.toNat ≤ 25 → (sym v).toNat = 0x41 + v.toNat) ∧
  (∀ v : Sym6, 26 ≤ v.toNat → v.toNat ≤ 51 → (sym v).toNat = 0x61 + (v.toNat - 26)) ∧
  (∀ v : Sym6, 52 ≤ v.toNat → v.toNat ≤ 61 → (sym v).toNat = 0x30 + (v.toNat - 52)) ∧
  sym 62 = 0x2B ∧ sym 63 = 0x2F ∧ paddingByte = 61 ∧ paddingByte ∉ alphabet

/-- R67: the laws of the mapper, and the 64 Valid, 1 Padding and 191 Invalid bytes of R66. -/
def Obligations.MapperLaws : Prop :=
  (∀ v w : Sym6, sym v = sym w → v = w) ∧ (∀ b : Byte, b ∈ alphabet ↔ ∃ v, sym v = b) ∧
  (∀ v : Sym6, cls (sym v) = .valid v) ∧ (∀ (b : Byte) (v : Sym6), cls b = .valid v → sym v = b) ∧
  (∀ b : Byte, cls b = .padding ↔ b = 0x3D) ∧ (∀ v : Sym6, sym v ≠ 0x3D) ∧
  ((List.range 256).filter fun n => cls (BitVec.ofNat 8 n) == .invalid).length = 191

/-- R68: MAP.ENC, in every MODE. -/
def Obligations.MapEncAppliesSym : Prop :=
  ∀ (s : State) (x : Byte), s.fault = false →
    (x.toNat < 64 → exec (.mapEnc x) s = .next
      { s with responses := s.responses ++ [⟨.ok, 0, (sym (x.setWidth 6)).toNat⟩] }) ∧
    (64 ≤ x.toNat → exec (.mapEnc x) s = .next (s.afterFault .symbolOutOfRange 4))

/-- R69, R70: MAP.DEC, in every MODE: the value of a Valid byte, 64 for Invalid, 128 for Padding. -/
def Obligations.MapDecAppliesCls : Prop :=
  ∀ (s : State) (b : Byte), s.fault = false →
    exec (.mapDec b) s = .next
      { s with responses := s.responses ++
          [⟨.ok, 0, match cls b with | .valid v => v.toNat | .invalid => 64 | .padding => 128⟩] }

/-- R99, R100: STATUS, in every MODE and also while FAULT = 1, and each field of the status word. -/
def Obligations.StatusReadsTheStatusWord : Prop :=
  ∀ s : State,
    exec (.status 0) s = .next
      { s with responses := s.responses ++ [⟨.ok, 0, (statusWord s).toNat⟩] } ∧
    (∀ x, x ≠ 0 → s.fault = false → exec (.status x) s = .next (s.afterFault .reservedOperand 3)) ∧
    (∀ x, x ≠ 0 → s.fault = true → exec (.status x) s = .next
      { s with responses := s.responses ++ [⟨.fault, causeCode s.faultCause, 0⟩] }) ∧
    ((statusWord s).extractLsb' 0 2).toNat =
      (match s.mode with | .idle => 0 | .enc => 1 | .dec => 2 | .decFailed => 3) ∧
    ((statusWord s).extractLsb' 2 2).toNat =
      (match s.err with | .noError => 0 | .invalidCharacter => 1 | .misplacedPadding => 2 | .incompleteGroup => 3) ∧
    ((statusWord s).extractLsb' 4 1).toNat = (if s.fault then 1 else 0) ∧
    ((statusWord s).extractLsb' 5 3).toNat =
      (match s.faultCause with
        | .noFault => 0 | .illegalOpcode => 1 | .commandOutOfSequence => 2
        | .reservedOperand => 3 | .symbolOutOfRange => 4 | .internalInvariant => 5) ∧
    ((statusWord s).extractLsb' 8 2).toNat = s.encPhase.val ∧
    ((statusWord s).extractLsb' 10 2).toNat = s.decPhase.val ∧
    ((statusWord s).extractLsb' 12 1).toNat = (if s.decPad = 0 then 0 else 1) ∧
    ((statusWord s).extractLsb' 13 2).toNat = s.decPad % 4 ∧
    ((statusWord s).extractLsb' 15 1).toNat = 0

/-! ## The port, the Buffer and the hold -/

/-- With nothing at the port and no command held the block waits with its state held (R119), and so it does for one
step when the host leaves it alone for one (log entry 8). -/
def Obligations.BlockWaitsWithItsStateHeld : Prop :=
  ∀ s : State, s.hold = none →
    (s.script = [] → step s = .next s) ∧
    (∀ rest, s.script = .wait :: rest → step s = .next { s with script := rest })

/-- R56, R52: a command that is taken either delivers exactly one response in the same step, or it holds and has
delivered none (R47). That a hold is a next state is the model's choice (log entry 7). -/
def Obligations.OneResponseForEachCommand : Prop :=
  ∀ (s t : State) (w : Word) (rest : List HostEvent), s.hold = none → s.script = .command w :: rest →
    step s = .next t → t.script = rest ∧
      ((t.hold = none ∧ ∃ r, t.responses = s.responses ++ [r]) ∨ (t.hold ≠ none ∧ t.responses = s.responses))

/-- R47: the block holds in the middle of a command exactly where the Buffer refuses one of the command's appends,
with the appends so far done and nothing else. Clause by clause: a command that holds has had an append refused, and
what it has done and what the block holds are the command's own; a command whose bytes do not all fit holds, with as
many of them appended as fit; a held command whose left bytes do not all fit goes on as far as they do and holds
again; and while none fits the block takes no step, whatever command waits at the port. That a Buffer refuses by its
size, and that a hold is a step which leaves the block as it is, is the model's choice (log entry 7). -/
def Obligations.RefusedAppendHoldsTheBlock : Prop :=
  (∀ (s t : State) (i : Instr) (h : Hold), s.hold = none → exec i s = .next t → t.hold = some h →
    t.accepts = false ∧ h.left ≠ [] ∧ s.appends i h.bytes h.cmd ∧
    ∃ pre : List Byte, h.bytes = pre ++ h.left ∧ t.buf = s.buf ++ pre ∧
      t = { s with mem := t.mem, outCount := s.outCount + pre.length, hold := some h }) ∧
  (∀ (s : State) (i : Instr) (vs : List Byte) (cmd : HeldCmd) (c : Nat), s.hold = none → s.appends i vs cmd →
    s.capacity = some c → vs ≠ [] → c < s.cursor + vs.length →
    exec i s = .next
      { s with
        mem := (vs.take (c - s.cursor)).foldl Memory.append s.mem, outCount := s.outCount + (c - s.cursor),
        hold := some ⟨vs, vs.drop (c - s.cursor), cmd⟩ }) ∧
  (∀ (s : State) (h : Hold) (c : Nat), s.hold = some h → s.capacity = some c → h.left ≠ [] →
    c < s.cursor + h.left.length → (s.script = [] ∨ ∃ w rest, s.script = .command w :: rest) →
    step s = .next
      { s with
        mem := (h.left.take (c - s.cursor)).foldl Memory.append s.mem, outCount := s.outCount + (c - s.cursor),
        hold := some { h with left := h.left.drop (c - s.cursor) } }) ∧
  (∀ (s : State) (h : Hold), s.hold = some h → h.left ≠ [] → s.accepts = false →
    ((s.script = [] ∨ ∃ w rest, s.script = .command w :: rest) → step s = .next s) ∧
    (∀ rest, s.script = .wait :: rest → step s = .next { s with script := rest }))

/-- R47, R56: a held command, once the Buffer accepts what is left of it, ends in the state the command would have
ended in on a Buffer that never stopped it: the hold loses nothing and repeats nothing. That step delivers the
command's one response, and a command word that waits at the port is neither taken by it nor lost. That a Buffer
refuses by its size, and that a held command goes on with the append that was refused, is the model's choice (log
entry 7), and so is the wait, which is gone from the script (log entry 8). -/
def Obligations.HeldCommandCompletesAsIfNeverHeld : Prop :=
  ∀ (s t : State) (i : Instr) (h : Hold), s.hold = none → exec i s = .next t → t.hold = some h →
    ∃ u, exec i { s with capacity := none } = .next u ∧ u.hold = none ∧ u.script = s.script ∧
      (∃ r, u.responses = s.responses ++ [r]) ∧
      ∀ cap : Option Nat, State.roomFor { t with capacity := cap } h.left.length →
        ((t.script = [] ∨ ∃ w rest, t.script = .command w :: rest) →
          step { t with capacity := cap } = .next { u with capacity := cap }) ∧
        (∀ rest, t.script = .wait :: rest →
          step { t with capacity := cap } = .next { u with capacity := cap, script := rest })

/-- The Buffer may change what it accepts between any two steps, also while a command is held, and nothing else
changes then: the model's choice (log entries 7 and 8). -/
def Obligations.BufferChangesWhatItAccepts : Prop :=
  ∀ (s : State) (c : Option Nat) (rest : List HostEvent), s.script = .setCapacity c :: rest →
    step s = .next { s with script := rest, capacity := c }

/-- R44, R125: the host may rewrite its Buffer between calls, and a run in which it does so inside one has no meaning.
How the two rules are read is the model's choice (log entry 12): the host replaces the whole content, in IDLE with no
command held, and in any other MODE the step is refused, also while the block is faulted inside a call. -/
def Obligations.HostOwnsTheBufferBetweenCalls : Prop :=
  ∀ (s : State) (bs : List Byte) (rest : List HostEvent), s.script = .putBuffer bs :: rest →
    (s.mode = .idle → s.hold = none →
      ∃ t, step s = .next t ∧ t.buf = bs ∧ t.mem.wf ∧ t = { s with mem := t.mem, script := rest }) ∧
    (s.mode ≠ .idle → step s = .refused .bufferNotOwned)

/-- R55, R101: the response word of a realization of COUNT_WIDTH bits. That such a realization's step is the model's,
refused exactly where a delivered DATA does not fit and throughout below 16 bits, is the model's choice (log
entry 13). -/
def Obligations.WireCarriesTheResponse : Prop :=
  (∀ (W : Nat) (r : Response), r.data < 2 ^ W →
    ∃ x : BitVec (W + 5), wire W r = some x ∧ (x.extractLsb' 0 W).toNat = r.data ∧ x.extractLsb' W 3 = r.code ∧
      (x.extractLsb' (W + 3) 2).toNat = (match r.res with | .ok => 0 | .decfail => 1 | .fault => 2)) ∧
  (∀ (W : Nat) (r : Response), 2 ^ W ≤ r.data → wire W r = none) ∧
  (∀ (W : Nat) (s t : State), 16 ≤ W → step s = .next t →
    ((∀ r ∈ delivered s t, r.data < 2 ^ W) → stepAtWidth W s = .next t) ∧
    ((∃ r ∈ delivered s t, 2 ^ W ≤ r.data) → stepAtWidth W s = .refused .countTooWide)) ∧
  (∀ (W : Nat) (s : State), W < 16 → stepAtWidth W s = .refused .countWidthTooSmall)

/-! ## Whole-machine rules -/

/-- The reset state meets the invariant. -/
def Obligations.ResetStateMeetsTheInvariant : Prop := Inv State.reset

/-- Every launch state of R133 meets the invariant: the reset state with any Buffer content and any commands. -/
def Obligations.LaunchStateMeetsTheInvariant : Prop :=
  ∀ (buf : List Byte) (script : List HostEvent), Inv (State.launch buf script) ∧ (State.launch buf script).buf = buf

/-- R29 and what the model adds to it (see `Inv`) hold after every step from a state where they hold. -/
def Obligations.EveryStepKeepsTheInvariant : Prop :=
  ∀ s t : State, Inv s → step s = .next t → Inv t

/-- In a state of the invariant a step is refused only where the host breaks its duty of R125; otherwise it answers
a next state. No command is ever refused. When the host breaks that duty is log entry 12, the model's choice. -/
def Obligations.OnlyTheHostCanEndARun : Prop :=
  ∀ s : State, Inv s →
    (∃ t, step s = .next t) ∨
    (∃ bs rest, s.script = .putBuffer bs :: rest ∧ s.mode ≠ .idle ∧ step s = .refused .bufferNotOwned)

/-- The states in which a command is refused, all of them, by command and by name: the encoder about to call `sym`
against its precondition (R65, which R72 rules out), and a rollback to a MARK beyond the cursor (R35, R125). -/
def Obligations.OnlyTheseStatesRefuseACommand : Prop :=
  ∀ (s : State) (i : Instr) (r : Refusal), exec i s = .refused r ↔ s.fault = false ∧
    ((r = .symbolPrecondition ∧ s.mode = .enc ∧ s.encPhase ≠ 0 ∧ 64 ≤ s.encStash.toNat ∧
        ((∃ b, i = .encByte b) ∨ i = .encEnd 0)) ∨
     (r = .invalidMark ∧ s.mode = .dec ∧ s.cursor < s.mark ∧
        ((∃ b, i = .decByte b ∧ (cls b = .invalid ∨ (cls b ≠ .padding ∧ s.decPad ≠ 0))) ∨
         (i = .decEnd 0 ∧ (s.decValid + s.decPad) % 4 ≠ 0))))

/-- In a state of the invariant every delivered response has the codes of R53 and R54: 0 with OK, 1 to 3 with
DECFAIL, 1 to 4 with FAULT (5 is never raised, R111), and DATA 0 with the last two. -/
def Obligations.ResponsesCarryTheStatedCodes : Prop :=
  ∀ s t : State, Inv s → step s = .next t → ∀ r ∈ t.responses, r ∈ s.responses ∨
    (r.res = .ok ∧ r.code = 0) ∨
    (r.res = .decfail ∧ r.data = 0 ∧ (r.code = 1 ∨ r.code = 2 ∨ r.code = 3)) ∨
    (r.res = .fault ∧ r.data = 0 ∧ (r.code = 1 ∨ r.code = 2 ∨ r.code = 3 ∨ r.code = 4))

/-- R25, R29(f): inside a call OUT_COUNT moves with the cursor, so it is the number of bytes appended since START,
and a failure sets it back with the Buffer. -/
def Obligations.OutCountFollowsTheCursor : Prop :=
  ∀ s t : State, Inv s → s.mode ≠ .idle → (∀ rest, s.script ≠ .reset :: rest) → step s = .next t →
    t.cursor + s.outCount = s.cursor + t.outCount

/-- R29(d): inside a decode call no step but a reset moves MARK, and none changes the bytes below it. -/
def Obligations.BytesBelowMarkSurviveADecodeCall : Prop :=
  ∀ s t : State, Inv s → s.mode = .dec ∨ s.mode = .decFailed → (∀ rest, s.script ≠ .reset :: rest) →
    step s = .next t → t.mark = s.mark ∧ t.buf.take s.mark = s.buf.take s.mark

/-! ## Whole calls -/

/-- R73: an encode call over any input appends `E(input)` and answers with its length; it raises no fault and no
failure, and it touches neither ERR nor the decoder's registers nor MARK. -/
def Obligations.EncodeCallAppendsTheText : Prop :=
  ∀ (s : State) (bs : List Byte), Ready s →
    ∃ t, runCommands (encodeCall bs) s = .next t ∧ Ready t ∧ t.buf = s.buf ++ encodeText bs ∧
      t.responses.length = s.responses.length + bs.length + 2 ∧
      t.responses.getLast? = some ⟨.ok, 0, (encodeText bs).length⟩ ∧
      t = { s with
        encPhase := 0, encStash := 0, outCount := (encodeText bs).length, mem := t.mem, hints := t.hints,
        responses := t.responses }

/-- R80: the length of the output, which ENC.END returns. -/
def Obligations.EncodeCallLength : Prop :=
  ∀ (s : State) (bs : List Byte), Ready s →
    ∃ t, runCommands (encodeCall bs) s = .next t ∧ t.cursor = s.cursor + 4 * ((bs.length + 2) / 3) ∧
      t.responses.getLast? = some ⟨.ok, 0, 4 * ((bs.length + 2) / 3)⟩

/-- R81: the output is alphabet bytes and then at most two padding bytes, present exactly when the input is no
whole number of groups. -/
def Obligations.EncodeCallAlphabet : Prop :=
  ∀ (s : State) (bs : List Byte), Ready s →
    ∃ t body n, runCommands (encodeCall bs) s = .next t ∧ t.buf = s.buf ++ body ++ List.replicate n 0x3D ∧
      (∀ b ∈ body, b ∈ alphabet) ∧ n ≤ 2 ∧ (n ≠ 0 ↔ bs.length % 3 ≠ 0)

/-- A run of commands on a finite Buffer is the run on one that always accepts, as long as no Buffer content of that
run is beyond the capacity: where there is room, the capacity does not show. With it the statements about whole
calls, which take a Buffer without a limit, hold of every Buffer with room (R47, log entry 7). -/
def Obligations.BufferWithRoomMakesNoDifference : Prop :=
  ∀ (s t : State) (is : List Instr), s.hold = none → runCommands is { s with capacity := none } = .next t →
    (∀ (k : Nat) (u : State) (c : Nat), runCommands (is.take k) { s with capacity := none } = .next u →
      s.capacity = some c → u.cursor ≤ c) →
    runCommands is s = .next { t with capacity := s.capacity }

/-- R83: a decode call over any input. If it succeeds, the decoded bytes follow the pre-call content and DEC.END
returns their number; if it fails, the Buffer is the pre-call content and DEC.END returns the kind. Which of the two
happens is `callFailure` (see DecodeCallReportsTheFirstOffence). -/
def Obligations.DecodeCallResult : Prop :=
  ∀ (s : State) (text : List Byte), Ready s →
    ∃ t, runCommands (decodeCall text) s = .next t ∧ Ready t ∧
      t.responses.length = s.responses.length + text.length + 2 ∧
      match callFailure text with
      | none => t.buf = s.buf ++ decodeSymbols (symbolsOf text) ∧ t.err = .noError ∧
          t.responses.getLast? = some ⟨.ok, 0, (decodeSymbols (symbolsOf text)).length⟩
      | some kind => t.mem = s.mem ∧ t.err = kind ∧
          t.responses.getLast? = some ⟨.decfail, (errCode kind).setWidth 3, 0⟩

/-- R93: which failure a decode call reports, and at which command. The answer to byte `k` is the response `k` places
after that of DEC.START. -/
def Obligations.DecodeCallReportsTheFirstOffence : Prop :=
  ∀ (s : State) (text : List Byte), Ready s →
    ∃ t, runCommands (decodeCall text) s = .next t ∧
      let answerTo (k : Nat) : Option Response := t.responses[s.responses.length + 1 + k]?
      let okBefore (n : Nat) : Prop := ∀ k, k < n → ∃ r, answerTo k = some r ∧ r.res = .ok
      let offends (i : Nat) : Prop := ∃ b, text[i]? = some b ∧
        (cls b = .invalid ∨ ((∃ v, cls b = .valid v) ∧ ∃ j, j < i ∧ text[j]? = some 0x3D))
      (∀ i, offends i → (∀ j, j < i → ¬ offends j) →
        ∃ code : BitVec 3, code = (if text[i]?.map cls = some .invalid then 1 else 2) ∧ okBefore i ∧
          answerTo i = some ⟨.decfail, code, 0⟩ ∧ t.responses.getLast? = some ⟨.decfail, code, 0⟩) ∧
      ((∀ i, ¬ offends i) → text.length % 4 ≠ 0 →
        okBefore text.length ∧ t.responses.getLast? = some ⟨.decfail, 3, 0⟩) ∧
      ((∀ i, ¬ offends i) → text.length % 4 = 0 → ∃ n, t.responses.getLast? = some ⟨.ok, 0, n⟩)

/-- R94: a decode call succeeds exactly on alphabet bytes followed by padding bytes, a multiple of 4 in all. -/
def Obligations.DecodeCallSucceedsExactlyOn : Prop :=
  ∀ (s : State) (text : List Byte), Ready s →
    ∃ t r, runCommands (decodeCall text) s = .next t ∧ t.responses.getLast? = some r ∧
      (r.res = .ok ↔ text.length % 4 = 0 ∧
        ∃ p q, text = p ++ q ∧ (∀ b ∈ p, b ∈ alphabet) ∧ (∀ b ∈ q, b = 0x3D)) ∧
      (∀ p q, text = p ++ q → (∀ b ∈ p, b ∈ alphabet) → (∀ b ∈ q, b = 0x3D) → text.length % 4 = 0 →
        t.buf = s.buf ++ decodeSymbols (symbolsOf p))

/-- R95: the count a successful decode call returns. -/
def Obligations.DecodeCallCount : Prop :=
  ∀ (s : State) (text : List Byte), Ready s → callFailure text = none →
    ∃ t, runCommands (decodeCall text) s = .next t ∧
      (let m := (symbolsOf text).length
       t.cursor = s.cursor + (3 * (m / 4) + (m % 4 - 1)) ∧
       t.responses.getLast? = some ⟨.ok, 0, 3 * (m / 4) + (m % 4 - 1)⟩)

/-- R98: decoding the text of an encode call gives the input back, in a run of the two calls; the converse fails for
the three texts the rule names. -/
def Obligations.DecodeOfEncodeIsTheInput : Prop :=
  (∀ (s : State) (bs : List Byte), Ready s →
    ∃ t u, runCommands (encodeCall bs) s = .next t ∧ t.buf = s.buf ++ encodeText bs ∧
      runCommands (decodeCall (encodeText bs)) t = .next u ∧ u.buf = t.buf ++ bs ∧
      u.responses.getLast? = some ⟨.ok, 0, bs.length⟩) ∧
  (∀ text ∈ [[0x54, 0x52, 0x3D, 0x3D], [0x54, 0x3D, 0x3D, 0x3D],
      [0x54, 0x57, 0x46, 0x75, 0x3D, 0x3D, 0x3D, (0x3D : Byte)]],
    callFailure text = none ∧ encodeText (decodeSymbols (symbolsOf text)) ≠ text)

/-- R96, R97: the bits no whole byte takes do not matter, nor does the number of padding bytes. After any whole
groups `p`, two texts whose last symbols agree but for the dropped bits decode to the same bytes, and so do two texts
that differ only in how much padding makes their length a multiple of 4. -/
def Obligations.DroppedBitsAreNotChecked : Prop :=
  ∀ (s : State) (p : List Byte), Ready s → (∀ b ∈ p, b ∈ alphabet) →
    (p.length % 4 = 0 →
      (∀ (v w w' : Sym6) (n : Nat), n % 4 = 2 → w.extractLsb' 4 2 = w'.extractLsb' 4 2 →
        ∃ t t', runCommands (decodeCall (p ++ [sym v, sym w] ++ List.replicate n 0x3D)) s = .next t ∧
          runCommands (decodeCall (p ++ [sym v, sym w'] ++ List.replicate n 0x3D)) s = .next t' ∧
          t.buf = t'.buf ∧ t.responses = t'.responses ∧ t.cursor = s.cursor + (3 * (p.length / 4) + 1) ∧
          t.responses.getLast? = some ⟨.ok, 0, 3 * (p.length / 4) + 1⟩) ∧
      (∀ (v w x x' : Sym6) (n : Nat), n % 4 = 1 → x.extractLsb' 2 4 = x'.extractLsb' 2 4 →
        ∃ t t', runCommands (decodeCall (p ++ [sym v, sym w, sym x] ++ List.replicate n 0x3D)) s = .next t ∧
          runCommands (decodeCall (p ++ [sym v, sym w, sym x'] ++ List.replicate n 0x3D)) s = .next t' ∧
          t.buf = t'.buf ∧ t.responses = t'.responses ∧ t.cursor = s.cursor + (3 * (p.length / 4) + 2) ∧
          t.responses.getLast? = some ⟨.ok, 0, 3 * (p.length / 4) + 2⟩) ∧
      (∀ (v v' : Sym6) (n : Nat), n % 4 = 3 →
        ∃ t t', runCommands (decodeCall (p ++ [sym v] ++ List.replicate n 0x3D)) s = .next t ∧
          runCommands (decodeCall (p ++ [sym v'] ++ List.replicate n 0x3D)) s = .next t' ∧
          t.buf = t'.buf ∧ t.responses = t'.responses ∧ t.cursor = s.cursor + 3 * (p.length / 4) ∧
          t.responses.getLast? = some ⟨.ok, 0, 3 * (p.length / 4)⟩)) ∧
    (∀ n n' : Nat, (p.length + n) % 4 = 0 → (p.length + n') % 4 = 0 →
      ∃ t t' k, runCommands (decodeCall (p ++ List.replicate n 0x3D)) s = .next t ∧
        runCommands (decodeCall (p ++ List.replicate n' 0x3D)) s = .next t' ∧ t.buf = t'.buf ∧
        t.responses.getLast? = some ⟨.ok, 0, k⟩ ∧ t'.responses.getLast? = some ⟨.ok, 0, k⟩)
end

