-- ==== Sys2Proof/Laws/Alphabet.lean ====
section
/-!
SUPPORT. `sym` on values held in bytes: when its precondition holds and what it then gives (R65, R72).
-/
namespace Sys2Proof.Machine

theorem symOf_of_lt {x : Byte} (h : x.toNat < 64) : symOf x = some (sym (x.setWidth 6)) := by
  simp [symOf, h]

theorem symOf_of_le {x : Byte} (h : 64 ≤ x.toNat) : symOf x = none := by
  simp [symOf, Nat.not_lt.2 h]

/-- `symsOf` on one and on two values that meet the precondition. -/
theorem symsOf_one {x : Byte} (h : x.toNat < 64) : symsOf [x] = some [sym (x.setWidth 6)] := by
  simp [symsOf, symOf_of_lt h]

theorem symsOf_two {x y : Byte} (h : x.toNat < 64) (h' : y.toNat < 64) :
    symsOf [x, y] = some [sym (x.setWidth 6), sym (y.setWidth 6)] := by
  simp [symsOf, symOf_of_lt h, symOf_of_lt h']

/-- A byte shifted right by two or more bits is a symbol value. -/
theorem shift_lt {b : Byte} {n : Nat} (h : 2 ≤ n) : (b >>> n).toNat < 64 := by
  have hb := b.isLt
  rw [BitVec.toNat_ushiftRight, Nat.shiftRight_eq_div_pow]
  have h1 : 4 ≤ 2 ^ n := by
    calc 4 = 2 ^ 2 := rfl
      _ ≤ 2 ^ n := Nat.pow_le_pow_right (by omega) h
  calc b.toNat / 2 ^ n ≤ b.toNat / 4 := Nat.div_le_div_left h1 (by omega)
    _ < 64 := by omega

/-- Two symbol values combine to a symbol value (R9, R72). -/
theorem or_lt {x y : Byte} (hx : x.toNat < 64) (hy : y.toNat < 64) : (x ||| y).toNat < 64 := by
  rw [BitVec.toNat_or]
  exact Nat.or_lt_two_pow (n := 6) hx hy

/-- The low six bits of a byte are a symbol value. -/
theorem low6_lt (b : Byte) : (b &&& 0x3F).toNat < 64 := by
  rw [BitVec.toNat_and]
  exact Nat.lt_of_le_of_lt Nat.and_le_right (by decide)

end Sys2Proof.Machine
end

