-- ==== Sys2Proof/Laws/Memory.lean ====
section
/-!
SUPPORT. The Buffer's operations keep its canonical form, and what a read gives after each of them.
-/
namespace Sys2Proof.Machine.Memory

@[simp] theorem length_append (m : Memory) (v : Byte) : (m.append v).length = m.length + 1 := by
  simp [Memory.append]

@[simp] theorem bytes_append (m : Memory) (v : Byte) : (m.append v).bytes = m.bytes ++ [v] := by
  simp [Memory.append, Memory.bytes]

@[simp] theorem length_bytes (m : Memory) : m.bytes.length = m.length := by
  simp [Memory.bytes]

@[simp] theorem length_truncate (m : Memory) (n : Nat) : (m.truncate n).length = min n m.length := by
  simp [Memory.truncate]

@[simp] theorem bytes_truncate (m : Memory) (n : Nat) : (m.truncate n).bytes = m.bytes.take n := by
  simp [Memory.truncate, Memory.bytes]

@[simp] theorem length_ofBytes (bs : List Byte) : (Memory.ofBytes bs).length = bs.length := by
  simp [Memory.ofBytes]

@[simp] theorem bytes_ofBytes (bs : List Byte) : (Memory.ofBytes bs).bytes = bs := by
  simp [Memory.ofBytes, Memory.bytes, List.map_snd_zip]

/-- The empty Buffer, which is what reset starts the model with, is in canonical form. -/
theorem wf_nil : Memory.wf ([] : Memory) := rfl

/-- `BufAppend` keeps the canonical form (R33). -/
theorem wf_append {m : Memory} (h : m.wf) (v : Byte) : (m.append v).wf := by
  simp only [Memory.wf, Memory.append, List.map_append, List.map_cons, List.map_nil, List.length_append,
    List.length_cons, List.length_nil, Nat.zero_add, List.range_succ]
  rw [h]

/-- `BufReset` keeps the canonical form (R35). -/
theorem wf_truncate {m : Memory} (h : m.wf) (n : Nat) : (m.truncate n).wf := by
  simp only [Memory.wf, Memory.truncate, List.map_take, List.length_take]
  rw [h, List.take_range]

/-- The host's rewriting of its Buffer gives a Buffer in canonical form (R44). -/
theorem wf_ofBytes (bs : List Byte) : (Memory.ofBytes bs).wf := by
  simp [Memory.wf, Memory.ofBytes, List.map_fst_zip]

/-- Two Buffers in canonical form that hold the same bytes are the same data. -/
theorem eq_of_bytes_eq {m n : Memory} (hm : m.wf) (hn : n.wf) (h : m.bytes = n.bytes) : m = n := by
  have hl : m.length = n.length := by simpa [Memory.bytes] using congrArg List.length h
  have h1 : m.map (·.1) = n.map (·.1) := by rw [hm, hn, hl]
  apply List.ext_getElem hl
  intro i h₁ h₂
  have a := List.getElem_of_eq h1 (i := i) (by simpa using h₁)
  have b := List.getElem_of_eq h (i := i) (by simpa using h₁)
  simp only [List.getElem_map, Memory.bytes] at a b
  exact Prod.ext a b

/-- A byte that is there is read back after an append anywhere else, whatever the Buffer (R33, R37). -/
theorem read_append_of_ne (m : Memory) (v : Byte) {a : Nat} (h : a ≠ m.length) :
    (m.append v).read a = m.read a := by
  have key : ∀ (l : Memory) (k : Nat), a ≠ k → Memory.read (l ++ [(k, v)]) a = Memory.read l a := by
    intro l k hk
    induction l with
    | nil => simp [Memory.read, Ne.symm hk]
    | cons c l ih => simp only [List.cons_append, Memory.read, ih]
  exact key m m.length h

/-- In canonical form the byte at a position is the list's element there. -/
theorem read_eq_getElem? {m : Memory} (h : m.wf) (a : Nat) : m.read a = m.bytes[a]? := by
  have key : ∀ (l : Memory) (k : Nat), l.map (·.1) = List.range' k l.length →
      ∀ a, k ≤ a → Memory.read l a = l.bytes[a - k]? := by
    intro l
    induction l with
    | nil => intro k _ a _; simp [Memory.read, Memory.bytes]
    | cons c l ih =>
      intro k hk a ha
      simp only [List.map_cons, List.length_cons, List.range'_succ, List.cons.injEq] at hk
      simp only [Memory.read, Memory.bytes, List.map_cons, hk.1]
      split
      · rename_i e; simp [e]
      · rename_i ne
        have hlt : k + 1 ≤ a := by omega
        rw [ih (k + 1) hk.2 a hlt, show a - k = (a - (k + 1)) + 1 by omega, List.getElem?_cons_succ]
        rfl
  have h0 : m.map (·.1) = List.range' 0 m.length := by rw [h, List.range_eq_range']
  simpa using key m 0 h0 a (Nat.zero_le a)

/-- The byte just appended is read back (R33). -/
theorem read_append_self {m : Memory} (h : m.wf) (v : Byte) : (m.append v).read m.length = some v := by
  rw [read_eq_getElem? (wf_append h v)]; simp

/-- A rollback leaves the bytes before the mark (R35). -/
theorem read_truncate_of_lt {m : Memory} (h : m.wf) {n a : Nat} (ha : a < n) : (m.truncate n).read a = m.read a := by
  rw [read_eq_getElem? (wf_truncate h n), read_eq_getElem? h]; simp [ha]

/-- A rollback discards the bytes from the mark on (R35). -/
theorem read_truncate_of_le {m : Memory} (h : m.wf) {n a : Nat} (ha : n ≤ a) : (m.truncate n).read a = none := by
  have hl : (m.truncate n).bytes.length ≤ a := by
    rw [bytes, List.length_map, truncate, List.length_take]; omega
  rw [read_eq_getElem? (wf_truncate h n), List.getElem?_eq_none hl]

end Sys2Proof.Machine.Memory
end

