-- ==== Sys2Proof/Laws/State.lean ====
section
/-!
SUPPORT. What each named update of State leaves in each field: one lemma per field per update, so that no later
proof unfolds a record update.
-/
namespace Sys2Proof.Machine.State

/-! ### Delivering a response -/

@[simp] theorem respond_mode (s : State) (r : Response) :
    (s.respond r).mode = s.mode := rfl
@[simp] theorem respond_fault (s : State) (r : Response) :
    (s.respond r).fault = s.fault := rfl
@[simp] theorem respond_faultCause (s : State) (r : Response) :
    (s.respond r).faultCause = s.faultCause := rfl
@[simp] theorem respond_err (s : State) (r : Response) :
    (s.respond r).err = s.err := rfl
@[simp] theorem respond_encPhase (s : State) (r : Response) :
    (s.respond r).encPhase = s.encPhase := rfl
@[simp] theorem respond_encStash (s : State) (r : Response) :
    (s.respond r).encStash = s.encStash := rfl
@[simp] theorem respond_decPhase (s : State) (r : Response) :
    (s.respond r).decPhase = s.decPhase := rfl
@[simp] theorem respond_decValid (s : State) (r : Response) :
    (s.respond r).decValid = s.decValid := rfl
@[simp] theorem respond_decPad (s : State) (r : Response) :
    (s.respond r).decPad = s.decPad := rfl
@[simp] theorem respond_decStash (s : State) (r : Response) :
    (s.respond r).decStash = s.decStash := rfl
@[simp] theorem respond_outCount (s : State) (r : Response) :
    (s.respond r).outCount = s.outCount := rfl
@[simp] theorem respond_mark (s : State) (r : Response) :
    (s.respond r).mark = s.mark := rfl
@[simp] theorem respond_hold (s : State) (r : Response) :
    (s.respond r).hold = s.hold := rfl
@[simp] theorem respond_mem (s : State) (r : Response) :
    (s.respond r).mem = s.mem := rfl
@[simp] theorem respond_capacity (s : State) (r : Response) :
    (s.respond r).capacity = s.capacity := rfl
@[simp] theorem respond_hints (s : State) (r : Response) :
    (s.respond r).hints = s.hints := rfl
@[simp] theorem respond_cuts (s : State) (r : Response) :
    (s.respond r).cuts = s.cuts := rfl
@[simp] theorem respond_script (s : State) (r : Response) :
    (s.respond r).script = s.script := rfl
@[simp] theorem respond_responses (s : State) (r : Response) :
    (s.respond r).responses = s.responses ++ [r] := rfl

/-! ### Appending a byte the Buffer accepts -/

@[simp] theorem bufAppend_mode (s : State) (v : Byte) :
    (s.bufAppend v).mode = s.mode := rfl
@[simp] theorem bufAppend_fault (s : State) (v : Byte) :
    (s.bufAppend v).fault = s.fault := rfl
@[simp] theorem bufAppend_faultCause (s : State) (v : Byte) :
    (s.bufAppend v).faultCause = s.faultCause := rfl
@[simp] theorem bufAppend_err (s : State) (v : Byte) :
    (s.bufAppend v).err = s.err := rfl
@[simp] theorem bufAppend_encPhase (s : State) (v : Byte) :
    (s.bufAppend v).encPhase = s.encPhase := rfl
@[simp] theorem bufAppend_encStash (s : State) (v : Byte) :
    (s.bufAppend v).encStash = s.encStash := rfl
@[simp] theorem bufAppend_decPhase (s : State) (v : Byte) :
    (s.bufAppend v).decPhase = s.decPhase := rfl
@[simp] theorem bufAppend_decValid (s : State) (v : Byte) :
    (s.bufAppend v).decValid = s.decValid := rfl
@[simp] theorem bufAppend_decPad (s : State) (v : Byte) :
    (s.bufAppend v).decPad = s.decPad := rfl
@[simp] theorem bufAppend_decStash (s : State) (v : Byte) :
    (s.bufAppend v).decStash = s.decStash := rfl
@[simp] theorem bufAppend_outCount (s : State) (v : Byte) :
    (s.bufAppend v).outCount = s.outCount + 1 := rfl
@[simp] theorem bufAppend_mark (s : State) (v : Byte) :
    (s.bufAppend v).mark = s.mark := rfl
@[simp] theorem bufAppend_hold (s : State) (v : Byte) :
    (s.bufAppend v).hold = s.hold := rfl
@[simp] theorem bufAppend_mem (s : State) (v : Byte) :
    (s.bufAppend v).mem = s.mem.append v := rfl
@[simp] theorem bufAppend_capacity (s : State) (v : Byte) :
    (s.bufAppend v).capacity = s.capacity := rfl
@[simp] theorem bufAppend_hints (s : State) (v : Byte) :
    (s.bufAppend v).hints = s.hints := rfl
@[simp] theorem bufAppend_cuts (s : State) (v : Byte) :
    (s.bufAppend v).cuts = s.cuts := rfl
@[simp] theorem bufAppend_script (s : State) (v : Byte) :
    (s.bufAppend v).script = s.script := rfl
@[simp] theorem bufAppend_responses (s : State) (v : Byte) :
    (s.bufAppend v).responses = s.responses := rfl

/-! ### The reservation hint of a START command -/

@[simp] theorem maybeReserve_mode (s : State) :
    (s.maybeReserve).mode = s.mode := rfl
@[simp] theorem maybeReserve_fault (s : State) :
    (s.maybeReserve).fault = s.fault := rfl
@[simp] theorem maybeReserve_faultCause (s : State) :
    (s.maybeReserve).faultCause = s.faultCause := rfl
@[simp] theorem maybeReserve_err (s : State) :
    (s.maybeReserve).err = s.err := rfl
@[simp] theorem maybeReserve_encPhase (s : State) :
    (s.maybeReserve).encPhase = s.encPhase := rfl
@[simp] theorem maybeReserve_encStash (s : State) :
    (s.maybeReserve).encStash = s.encStash := rfl
@[simp] theorem maybeReserve_decPhase (s : State) :
    (s.maybeReserve).decPhase = s.decPhase := rfl
@[simp] theorem maybeReserve_decValid (s : State) :
    (s.maybeReserve).decValid = s.decValid := rfl
@[simp] theorem maybeReserve_decPad (s : State) :
    (s.maybeReserve).decPad = s.decPad := rfl
@[simp] theorem maybeReserve_decStash (s : State) :
    (s.maybeReserve).decStash = s.decStash := rfl
@[simp] theorem maybeReserve_outCount (s : State) :
    (s.maybeReserve).outCount = s.outCount := rfl
@[simp] theorem maybeReserve_mark (s : State) :
    (s.maybeReserve).mark = s.mark := rfl
@[simp] theorem maybeReserve_hold (s : State) :
    (s.maybeReserve).hold = s.hold := rfl
@[simp] theorem maybeReserve_mem (s : State) :
    (s.maybeReserve).mem = s.mem := rfl
@[simp] theorem maybeReserve_capacity (s : State) :
    (s.maybeReserve).capacity = s.capacity := rfl
@[simp] theorem maybeReserve_hints (s : State) :
    (s.maybeReserve).hints = s.hints ++ [Config.reserveHint s.hints.length] := rfl
@[simp] theorem maybeReserve_cuts (s : State) :
    (s.maybeReserve).cuts = s.cuts := rfl
@[simp] theorem maybeReserve_script (s : State) :
    (s.maybeReserve).script = s.script := rfl
@[simp] theorem maybeReserve_responses (s : State) :
    (s.maybeReserve).responses = s.responses := rfl

/-! ### The fault action -/

@[simp] theorem raiseFault_mode (s : State) (c : FaultCause) :
    (s.raiseFault c).mode = s.mode := rfl
@[simp] theorem raiseFault_fault (s : State) (c : FaultCause) :
    (s.raiseFault c).fault = true := rfl
@[simp] theorem raiseFault_faultCause (s : State) (c : FaultCause) :
    (s.raiseFault c).faultCause = c := rfl
@[simp] theorem raiseFault_err (s : State) (c : FaultCause) :
    (s.raiseFault c).err = s.err := rfl
@[simp] theorem raiseFault_encPhase (s : State) (c : FaultCause) :
    (s.raiseFault c).encPhase = s.encPhase := rfl
@[simp] theorem raiseFault_encStash (s : State) (c : FaultCause) :
    (s.raiseFault c).encStash = s.encStash := rfl
@[simp] theorem raiseFault_decPhase (s : State) (c : FaultCause) :
    (s.raiseFault c).decPhase = s.decPhase := rfl
@[simp] theorem raiseFault_decValid (s : State) (c : FaultCause) :
    (s.raiseFault c).decValid = s.decValid := rfl
@[simp] theorem raiseFault_decPad (s : State) (c : FaultCause) :
    (s.raiseFault c).decPad = s.decPad := rfl
@[simp] theorem raiseFault_decStash (s : State) (c : FaultCause) :
    (s.raiseFault c).decStash = s.decStash := rfl
@[simp] theorem raiseFault_outCount (s : State) (c : FaultCause) :
    (s.raiseFault c).outCount = s.outCount := rfl
@[simp] theorem raiseFault_mark (s : State) (c : FaultCause) :
    (s.raiseFault c).mark = s.mark := rfl
@[simp] theorem raiseFault_hold (s : State) (c : FaultCause) :
    (s.raiseFault c).hold = s.hold := rfl
@[simp] theorem raiseFault_mem (s : State) (c : FaultCause) :
    (s.raiseFault c).mem = s.mem := rfl
@[simp] theorem raiseFault_capacity (s : State) (c : FaultCause) :
    (s.raiseFault c).capacity = s.capacity := rfl
@[simp] theorem raiseFault_hints (s : State) (c : FaultCause) :
    (s.raiseFault c).hints = s.hints := rfl
@[simp] theorem raiseFault_cuts (s : State) (c : FaultCause) :
    (s.raiseFault c).cuts = s.cuts := rfl
@[simp] theorem raiseFault_script (s : State) (c : FaultCause) :
    (s.raiseFault c).script = s.script := rfl
@[simp] theorem raiseFault_responses (s : State) (c : FaultCause) :
    (s.raiseFault c).responses = s.responses ++ [faultResponse c] := rfl

/-! ### The answer of a faulted block -/

@[simp] theorem answerFaulted_mode (s : State) :
    (s.answerFaulted).mode = s.mode := rfl
@[simp] theorem answerFaulted_fault (s : State) :
    (s.answerFaulted).fault = s.fault := rfl
@[simp] theorem answerFaulted_faultCause (s : State) :
    (s.answerFaulted).faultCause = s.faultCause := rfl
@[simp] theorem answerFaulted_err (s : State) :
    (s.answerFaulted).err = s.err := rfl
@[simp] theorem answerFaulted_encPhase (s : State) :
    (s.answerFaulted).encPhase = s.encPhase := rfl
@[simp] theorem answerFaulted_encStash (s : State) :
    (s.answerFaulted).encStash = s.encStash := rfl
@[simp] theorem answerFaulted_decPhase (s : State) :
    (s.answerFaulted).decPhase = s.decPhase := rfl
@[simp] theorem answerFaulted_decValid (s : State) :
    (s.answerFaulted).decValid = s.decValid := rfl
@[simp] theorem answerFaulted_decPad (s : State) :
    (s.answerFaulted).decPad = s.decPad := rfl
@[simp] theorem answerFaulted_decStash (s : State) :
    (s.answerFaulted).decStash = s.decStash := rfl
@[simp] theorem answerFaulted_outCount (s : State) :
    (s.answerFaulted).outCount = s.outCount := rfl
@[simp] theorem answerFaulted_mark (s : State) :
    (s.answerFaulted).mark = s.mark := rfl
@[simp] theorem answerFaulted_hold (s : State) :
    (s.answerFaulted).hold = s.hold := rfl
@[simp] theorem answerFaulted_mem (s : State) :
    (s.answerFaulted).mem = s.mem := rfl
@[simp] theorem answerFaulted_capacity (s : State) :
    (s.answerFaulted).capacity = s.capacity := rfl
@[simp] theorem answerFaulted_hints (s : State) :
    (s.answerFaulted).hints = s.hints := rfl
@[simp] theorem answerFaulted_cuts (s : State) :
    (s.answerFaulted).cuts = s.cuts := rfl
@[simp] theorem answerFaulted_script (s : State) :
    (s.answerFaulted).script = s.script := rfl
@[simp] theorem answerFaulted_responses (s : State) :
    (s.answerFaulted).responses = s.responses ++ [faultResponse s.faultCause] := rfl

/-! ### What a reset does to a held command's appends -/

@[simp] theorem cutHeld_mode (s : State) :
    (s.cutHeld).mode = s.mode := by unfold cutHeld; split <;> rfl
@[simp] theorem cutHeld_fault (s : State) :
    (s.cutHeld).fault = s.fault := by unfold cutHeld; split <;> rfl
@[simp] theorem cutHeld_faultCause (s : State) :
    (s.cutHeld).faultCause = s.faultCause := by unfold cutHeld; split <;> rfl
@[simp] theorem cutHeld_err (s : State) :
    (s.cutHeld).err = s.err := by unfold cutHeld; split <;> rfl
@[simp] theorem cutHeld_encPhase (s : State) :
    (s.cutHeld).encPhase = s.encPhase := by unfold cutHeld; split <;> rfl
@[simp] theorem cutHeld_encStash (s : State) :
    (s.cutHeld).encStash = s.encStash := by unfold cutHeld; split <;> rfl
@[simp] theorem cutHeld_decPhase (s : State) :
    (s.cutHeld).decPhase = s.decPhase := by unfold cutHeld; split <;> rfl
@[simp] theorem cutHeld_decValid (s : State) :
    (s.cutHeld).decValid = s.decValid := by unfold cutHeld; split <;> rfl
@[simp] theorem cutHeld_decPad (s : State) :
    (s.cutHeld).decPad = s.decPad := by unfold cutHeld; split <;> rfl
@[simp] theorem cutHeld_decStash (s : State) :
    (s.cutHeld).decStash = s.decStash := by unfold cutHeld; split <;> rfl
@[simp] theorem cutHeld_outCount (s : State) :
    (s.cutHeld).outCount = s.outCount := by unfold cutHeld; split <;> rfl
@[simp] theorem cutHeld_mark (s : State) :
    (s.cutHeld).mark = s.mark := by unfold cutHeld; split <;> rfl
@[simp] theorem cutHeld_hold (s : State) :
    (s.cutHeld).hold = s.hold := by unfold cutHeld; split <;> rfl
@[simp] theorem cutHeld_capacity (s : State) :
    (s.cutHeld).capacity = s.capacity := by unfold cutHeld; split <;> rfl
@[simp] theorem cutHeld_hints (s : State) :
    (s.cutHeld).hints = s.hints := by unfold cutHeld; split <;> rfl
@[simp] theorem cutHeld_script (s : State) :
    (s.cutHeld).script = s.script := by unfold cutHeld; split <;> rfl
@[simp] theorem cutHeld_responses (s : State) :
    (s.cutHeld).responses = s.responses := by unfold cutHeld; split <;> rfl

/-! ### Reset of the block -/

@[simp] theorem resetBlock_mode (s : State) :
    (s.resetBlock).mode = .idle := rfl
@[simp] theorem resetBlock_fault (s : State) :
    (s.resetBlock).fault = false := rfl
@[simp] theorem resetBlock_faultCause (s : State) :
    (s.resetBlock).faultCause = .noFault := rfl
@[simp] theorem resetBlock_err (s : State) :
    (s.resetBlock).err = .noError := rfl
@[simp] theorem resetBlock_encPhase (s : State) :
    (s.resetBlock).encPhase = 0 := rfl
@[simp] theorem resetBlock_encStash (s : State) :
    (s.resetBlock).encStash = 0 := rfl
@[simp] theorem resetBlock_decPhase (s : State) :
    (s.resetBlock).decPhase = 0 := rfl
@[simp] theorem resetBlock_decValid (s : State) :
    (s.resetBlock).decValid = 0 := rfl
@[simp] theorem resetBlock_decPad (s : State) :
    (s.resetBlock).decPad = 0 := rfl
@[simp] theorem resetBlock_decStash (s : State) :
    (s.resetBlock).decStash = 0 := rfl
@[simp] theorem resetBlock_outCount (s : State) :
    (s.resetBlock).outCount = 0 := rfl
@[simp] theorem resetBlock_mark (s : State) :
    (s.resetBlock).mark = 0 := rfl
@[simp] theorem resetBlock_hold (s : State) :
    (s.resetBlock).hold = none := rfl
@[simp] theorem resetBlock_mem (s : State) :
    (s.resetBlock).mem = s.cutHeld.mem := rfl
@[simp] theorem resetBlock_capacity (s : State) :
    (s.resetBlock).capacity = s.capacity := rfl
@[simp] theorem resetBlock_hints (s : State) :
    (s.resetBlock).hints = s.hints := rfl
@[simp] theorem resetBlock_cuts (s : State) :
    (s.resetBlock).cuts = s.cutHeld.cuts := rfl
@[simp] theorem resetBlock_script (s : State) :
    (s.resetBlock).script = s.script := rfl
@[simp] theorem resetBlock_responses (s : State) :
    (s.resetBlock).responses = s.responses := rfl

@[simp] theorem cursor_eq (s : State) : s.cursor = s.mem.length := rfl

@[simp] theorem bufMark_eq (s : State) : s.bufMark = s.mem.length := rfl

end Sys2Proof.Machine.State
end

