-- ==== Sys2Proof/Laws/Ops.lean ====
section
/-!
SUPPORT. For each shared operation, one lemma that says everything it can do. Later proofs cite these and do not
unfold the operation.
-/
namespace Sys2Proof.Machine

/-! ### Appending -/

/-- The state after the Buffer has accepted these bytes in order. -/
def State.appended (s : State) (vs : List Byte) : State := vs.foldl State.bufAppend s

@[simp] theorem State.appended_nil (s : State) : s.appended [] = s := rfl

@[simp] theorem State.appended_cons (s : State) (v : Byte) (vs : List Byte) :
    s.appended (v :: vs) = (s.bufAppend v).appended vs := rfl

/-- Appending changes the Buffer and OUT_COUNT and nothing else (R33). -/
theorem State.appended_frame (s : State) (vs : List Byte) :
    s.appended vs = { s with mem := vs.foldl Memory.append s.mem, outCount := s.outCount + vs.length } := by
  induction vs generalizing s with
  | nil => rfl
  | cons v vs ih =>
    rw [State.appended_cons, ih]
    simp [State.bufAppend, Nat.add_assoc, Nat.add_comm 1]

theorem Memory.bytes_foldl_append (m : Memory) (vs : List Byte) :
    Memory.bytes (vs.foldl Memory.append m) = m.bytes ++ vs := by
  induction vs generalizing m with
  | nil => simp
  | cons v vs ih => simp [ih]

theorem Memory.length_foldl_append (m : Memory) (vs : List Byte) :
    List.length (vs.foldl Memory.append m) = m.length + vs.length := by
  rw [← Memory.length_bytes, Memory.bytes_foldl_append]; simp

theorem Memory.wf_foldl_append {m : Memory} (h : m.wf) (vs : List Byte) :
    Memory.wf (vs.foldl Memory.append m) := by
  induction vs generalizing m with
  | nil => exact h
  | cons v vs ih => exact ih (Memory.wf_append h v)

/-- A byte outside the positions appended to reads as before, whatever the Buffer (R37). -/
theorem Memory.read_foldl_append (m : Memory) (vs : List Byte) {a : Nat}
    (h : a < m.length ∨ m.length + vs.length ≤ a) :
    Memory.read (vs.foldl Memory.append m) a = m.read a := by
  induction vs generalizing m with
  | nil => rfl
  | cons v vs ih =>
    simp only [List.length_cons] at h
    rw [List.foldl_cons, ih, Memory.read_append_of_ne m v (by omega)]
    rw [Memory.length_append]; omega

/-- What `appendAll` can do: it appends a first part of the bytes, and it stops before the end only where the
Buffer does not accept (R47). -/
theorem appendAll_spec (vs : List Byte) (s : State) :
    ∃ pre, vs = pre ++ (appendAll vs s).1 ∧ (appendAll vs s).2 = s.appended pre ∧
      ((appendAll vs s).1 ≠ [] → (appendAll vs s).2.accepts = false) := by
  induction vs generalizing s with
  | nil => exact ⟨[], by simp [appendAll]⟩
  | cons v vs ih =>
    by_cases h : s.accepts = true
    · obtain ⟨pre, h1, h2, h3⟩ := ih (s.bufAppend v)
      refine ⟨v :: pre, ?_, ?_, ?_⟩
      · simpa [appendAll, h] using h1
      · simpa [appendAll, h] using h2
      · simpa [appendAll, h] using h3
    · exact ⟨[], by simp [appendAll, h]⟩

/-- Room for one more byte, and what is left of it after that byte (R47). -/
theorem State.accepts_of_roomFor {s : State} {n : Nat} (h : s.roomFor (n + 1)) : s.accepts = true := by
  unfold State.accepts
  split
  · rfl
  · rename_i c hc
    have := h c hc
    exact decide_eq_true (by omega)

theorem State.roomFor_bufAppend {s : State} {n : Nat} (h : s.roomFor (n + 1)) (v : Byte) :
    (s.bufAppend v).roomFor n := by
  intro c hc
  have := h c hc
  simp at *
  omega

/-- A Buffer without a limit has room for everything. -/
theorem State.roomFor_of_unlimited {s : State} (h : s.capacity = none) (n : Nat) : s.roomFor n := by
  intro c hc
  simp [h] at hc

/-- Where the Buffer has room, a command that appends completes. -/
theorem appendFrom_room (h : Hold) (done : State → State) {s : State} (hr : s.roomFor h.left.length) :
    appendFrom h done s = done (s.appended h.left) := by
  have key : ∀ (vs : List Byte) (s : State), s.roomFor vs.length → appendAll vs s = ([], s.appended vs) := by
    intro vs
    induction vs with
    | nil => intro s _; rfl
    | cons v vs ih =>
      intro s hr
      simp [appendAll, State.accepts_of_roomFor hr, ih _ (State.roomFor_bufAppend hr v)]
  simp [appendFrom, key _ _ hr]

@[simp] theorem appendThen_nil (cmd : HeldCmd) (done : State → State) (s : State) :
    appendThen [] cmd done s = done s := rfl

theorem appendThen_room (vs : List Byte) (cmd : HeldCmd) (done : State → State) {s : State}
    (h : s.roomFor vs.length) : appendThen vs cmd done s = done (s.appended vs) :=
  appendFrom_room ⟨vs, vs, cmd⟩ done h

/-- As many bytes are appended as the Buffer has room for. -/
theorem appendAll_capacity (vs : List Byte) {s : State} {c : Nat} (hc : s.capacity = some c) :
    appendAll vs s = (vs.drop (c - s.cursor), s.appended (vs.take (c - s.cursor))) := by
  induction vs generalizing s with
  | nil => simp [appendAll]
  | cons v vs ih =>
    by_cases h : s.cursor < c
    · have hn : c - s.cursor = c - (s.bufAppend v).cursor + 1 := by simp at h ⊢; omega
      rw [hn]
      simp only [appendAll, State.accepts, hc, h, decide_true, if_true, List.drop_succ_cons, List.take_succ_cons,
        State.appended_cons]
      exact ih hc
    · have hn : c - s.cursor = 0 := by omega
      rw [hn]
      simp only [appendAll, State.accepts, hc, h, decide_false, Bool.false_eq_true, if_false, List.drop_zero,
        List.take_zero, State.appended_nil]

/-- A command that appends more than the Buffer has room for holds, with what fits appended (R47). -/
theorem appendFrom_full (h : Hold) (done : State → State) {s : State} {c : Nat} (hc : s.capacity = some c)
    (hl : h.left ≠ []) (hr : c < s.cursor + h.left.length) :
    appendFrom h done s =
      { s.appended (h.left.take (c - s.cursor)) with hold := some { h with left := h.left.drop (c - s.cursor) } } := by
  simp only [appendFrom, appendAll_capacity _ hc]
  have hd : h.left.drop (c - s.cursor) ≠ [] := by
    have := List.length_pos_iff.2 hl
    simp only [ne_eq, List.drop_eq_nil_iff]
    omega
  cases e : h.left.drop (c - s.cursor) with
  | nil => exact absurd e hd
  | cons v left => rfl

/-- What a command that appends can do, from its first append or from the middle: it completes, or it holds with a
first part of what was left done and no more room (R47). -/
theorem appendFrom_cases (h : Hold) (done : State → State) (s : State) :
    appendFrom h done s = done (s.appended h.left) ∨
      ∃ pre v left, h.left = pre ++ v :: left ∧ (s.appended pre).accepts = false ∧
        appendFrom h done s = { s.appended pre with hold := some { h with left := v :: left } } := by
  obtain ⟨pre, h1, h2, h3⟩ := appendAll_spec h.left s
  generalize e : appendAll h.left s = r at h1 h2 h3
  obtain ⟨left, t⟩ := r
  simp only at h1 h2 h3
  cases left with
  | nil =>
    left
    simp only [List.append_nil] at h1
    subst h1
    simp [appendFrom, e, h2]
  | cons v left =>
    right
    refine ⟨pre, v, left, h1, ?_, ?_⟩
    · rw [← h2]; exact h3 (by simp)
    · simp [appendFrom, e, h2]

theorem appendThen_cases (vs : List Byte) (cmd : HeldCmd) (done : State → State) (s : State) :
    appendThen vs cmd done s = done (s.appended vs) ∨
      ∃ pre v left, vs = pre ++ v :: left ∧ (s.appended pre).accepts = false ∧
        appendThen vs cmd done s = { s.appended pre with hold := some ⟨vs, v :: left, cmd⟩ } :=
  appendFrom_cases ⟨vs, vs, cmd⟩ done s

/-! ### Reset and a held command -/

/-- With no command held a reset leaves the Buffer alone (R121). -/
theorem State.cutHeld_of_none {s : State} (h : s.hold = none) : s.cutHeld = s := by
  simp [State.cutHeld, h]

/-- Of a held command's appends a reset leaves a first part, of a length no proof can see, and it leaves every byte
before them (I10). -/
theorem State.cutHeld_of_some {s : State} {h : Hold} {base done : List Byte} (hh : s.hold = some h)
    (hb : s.buf = base ++ done) (hd : h.bytes = done ++ h.left) :
    s.cutHeld.buf = base ++ h.bytes.take (Config.resetKeeps s.cuts) ∧ s.cutHeld.cuts = s.cuts + 1 := by
  have hl : s.mem.length = base.length + done.length := by
    simpa [State.buf] using congrArg List.length hb
  have hn : s.cursor - h.appended = base.length := by
    simp only [State.cursor, Hold.appended, hd, List.length_append]; omega
  refine ⟨?_, by simp [State.cutHeld, hh]⟩
  have ht : Memory.bytes (s.mem.truncate base.length) = base := by
    have : s.mem.bytes = base ++ done := hb
    simp [Memory.bytes, Memory.truncate] at this ⊢
    rw [← List.map_take] at *
    simp [this]
  simp only [State.cutHeld, hh, State.buf, hn, Memory.bytes_foldl_append, ht]

/-- A reset keeps the canonical form of the Buffer. -/
theorem State.cutHeld_wf {s : State} (h : s.mem.wf) : s.cutHeld.mem.wf := by
  unfold State.cutHeld
  split
  · exact h
  · exact Memory.wf_foldl_append (Memory.wf_truncate h _) _

/-! ### The checks -/

/-- A well-formed command's operand raises no fault, and no other's does not (R49, R58, R68). -/
theorem operandFault_eq_none_iff (i : Instr) : operandFault i = none ↔ i.wellFormed = true := by
  cases i <;> simp [operandFault, Instr.wellFormed, Instr.form, Instr.opd, OperandForm.admits]

theorem verdict_executes {i : Instr} {s : State} (hf : s.fault = false) (hl : legalIn i s.mode = true)
    (ho : operandFault i = none) : verdict i s = .executes := by
  simp [verdict, hf, hl, ho]

/-- What the checks of R59 can find. -/
theorem verdict_cases (i : Instr) (s : State) :
    (verdict i s = .faulted ∧ s.fault = true ∧ executesWhileFaulted i = false) ∨
    (∃ c, verdict i s = .raises c ∧ s.fault = false ∧
      ((legalIn i s.mode = false ∧ c = .commandOutOfSequence) ∨
        (legalIn i s.mode = true ∧ operandFault i = some c))) ∨
    (verdict i s = .executes ∧
      ((s.fault = true ∧ executesWhileFaulted i = true) ∨
        (s.fault = false ∧ legalIn i s.mode = true ∧ operandFault i = none))) := by
  cases hf : s.fault
  · cases hl : legalIn i s.mode
    · exact .inr (.inl ⟨.commandOutOfSequence, by simp [verdict, hf, hl]⟩)
    · cases ho : operandFault i with
      | none => exact .inr (.inr (by simp [verdict, hf, hl, ho]))
      | some c => exact .inr (.inl ⟨c, by simp [verdict, hf, hl, ho]⟩)
  · cases he : executesWhileFaulted i
    · exact .inl (by simp [verdict, hf, he])
    · exact .inr (.inr (by simp [verdict, hf, he]))

/-- The faults an operand can raise (R107). -/
theorem operandFault_cause {i : Instr} {c : FaultCause} (h : operandFault i = some c) :
    c = .reservedOperand ∨ c = .symbolOutOfRange := by
  cases i <;> simp_all [operandFault]

theorem gate_executes {i : Instr} {s : State} (rule : State → Out) (h : verdict i s = .executes) :
    gate i rule s = rule s := by
  simp [gate, h]

/-- A command in a MODE it is not legal in (R57). -/
theorem gate_outOfSequence {i : Instr} {s : State} (rule : State → Out) (hf : s.fault = false)
    (hl : legalIn i s.mode = false) : gate i rule s = .next (s.afterFault .commandOutOfSequence 2) := by
  simp [gate, verdict, hf, hl, State.raiseFault, State.respond, State.afterFault, faultResponse, causeCode]

/-- A command with an operand its form does not admit (R58, R68). -/
theorem gate_operandFault {i : Instr} {s : State} {c : FaultCause} (rule : State → Out) (hf : s.fault = false)
    (hl : legalIn i s.mode = true) (ho : operandFault i = some c) :
    gate i rule s = .next (s.afterFault c (causeCode c)) := by
  simp [gate, verdict, hf, hl, ho, State.raiseFault, State.respond, State.afterFault, faultResponse]

/-- A command that passes its checks (R59). -/
theorem gate_runs {i : Instr} {s : State} (rule : State → Out) (hf : s.fault = false)
    (hl : legalIn i s.mode = true) (ho : operandFault i = none) : gate i rule s = rule s :=
  gate_executes rule (verdict_executes hf hl ho)

/-- A command other than STATUS with operand 0 while FAULT = 1 (R109). -/
theorem gate_faulted {i : Instr} {s : State} (rule : State → Out) (hf : s.fault = true)
    (he : executesWhileFaulted i = false) :
    gate i rule s = .next { s with responses := s.responses ++ [⟨.fault, causeCode s.faultCause, 0⟩] } := by
  simp [gate, verdict, hf, he, State.answerFaulted, State.respond, faultResponse]

/-- The word `0x3000` passes its checks in every state (R99). -/
theorem gate_status (rule : State → Out) (s : State) : gate (.status 0) rule s = rule s := by
  cases hf : s.fault <;> simp [gate, verdict, hf, executesWhileFaulted, legalIn, operandFault]

/-- What a command can do behind its checks: the recorded fault answers, a fault is raised, or its rule runs. -/
theorem gate_cases (i : Instr) (rule : State → Out) (s : State) :
    (s.fault = true ∧ gate i rule s = .next s.answerFaulted) ∨
    (∃ c, s.fault = false ∧ c ≠ .noFault ∧ c ≠ .internalInvariant ∧ gate i rule s = .next (s.raiseFault c)) ∨
    (verdict i s = .executes ∧ gate i rule s = rule s) := by
  rcases verdict_cases i s with ⟨hv, hf, _⟩ | ⟨c, hv, hf, hc⟩ | ⟨hv, _⟩
  · exact .inl ⟨hf, by simp [gate, hv]⟩
  · refine .inr (.inl ⟨c, hf, ?_⟩)
    have : c ≠ .noFault ∧ c ≠ .internalInvariant := by
      rcases hc with ⟨_, rfl⟩ | ⟨_, ho⟩
      · exact ⟨by simp, by simp⟩
      · rcases operandFault_cause ho with rfl | rfl <;> exact ⟨by simp, by simp⟩
    exact ⟨this.1, this.2, by simp [gate, hv]⟩
  · exact .inr (.inr ⟨hv, by simp [gate, hv]⟩)

/-! ### Rollback -/

theorem State.bufReset_of_le {s : State} {m : Nat} (h : m ≤ s.mem.length) :
    s.bufReset m = some { s with mem := s.mem.truncate m } := by
  simp [State.bufReset, h]

/-- `decfail` on a Buffer whose MARK is valid (R91). -/
theorem State.decfail_of_le {s : State} (kind : ErrKind) (h : s.mark ≤ s.mem.length) :
    s.decfail kind =
      some { s with mem := s.mem.truncate s.mark, outCount := 0, err := kind, mode := .decFailed } := by
  simp [State.decfail, State.bufReset_of_le h]

/-- What `decfail` can do: roll back, or answer nothing where MARK is no mark of this Buffer (R35, R91). -/
theorem State.decfail_cases (s : State) (kind : ErrKind) :
    (s.mark ≤ s.mem.length ∧ s.decfail kind =
      some { s with mem := s.mem.truncate s.mark, outCount := 0, err := kind, mode := .decFailed }) ∨
    (s.mem.length < s.mark ∧ s.decfail kind = none) := by
  by_cases h : s.mark ≤ s.mem.length
  · exact .inl ⟨h, State.decfail_of_le kind h⟩
  · exact .inr ⟨by omega, by simp [State.decfail, State.bufReset, h]⟩

end Sys2Proof.Machine
end

