-- ==== Sys2Proof/Laws/Commands.lean ====
section
/-!
SUPPORT. What each command's rule can do, once its checks are passed: one lemma per rule, to be cited together
with `gate_cases`.
-/
namespace Sys2Proof.Machine

/-- The rule behind the checks of each command. -/
def ruleOf : Instr → State → Out
  | .encStart _ => encStartRule
  | .encByte b => encByteRule b
  | .encEnd _ => encEndRule
  | .decStart _ => decStartRule
  | .decByte b => decByteRule b
  | .decEnd _ => decEndRule
  | .mapEnc v => mapEncRule v
  | .mapDec b => mapDecRule b
  | .status _ => statusRule

/-- Every command is its rule behind the checks of R59. -/
theorem exec_eq_gate (i : Instr) (s : State) : exec i s = gate i (ruleOf i) s := by
  cases i <;> rfl

/-- What `encSymbols` gives in the states of R29(a): one symbol value for each append (R72). -/
theorem encSymbols_of_lt (b : Byte) {s : State} (h : s.encStash.toNat < 64) :
    encSymbols b s = some (
      match s.encPhase with
      | 0 => [sym ((b >>> 2).setWidth 6)]
      | 1 => [sym ((s.encStash ||| (b >>> 4)).setWidth 6)]
      | 2 => [sym ((s.encStash ||| (b >>> 6)).setWidth 6), sym ((b &&& 0x3F).setWidth 6)]) := by
  have h2 : (b >>> 2).toNat < 64 := shift_lt (by omega)
  have h4 : (s.encStash ||| (b >>> 4)).toNat < 64 := or_lt h (shift_lt (by omega))
  have h6 : (s.encStash ||| (b >>> 6)).toNat < 64 := or_lt h (shift_lt (by omega))
  have h3 := low6_lt b
  unfold encSymbols
  generalize s.encPhase = p
  match p with
  | 0 => exact symsOf_one h2
  | 1 => exact symsOf_one h4
  | 2 => exact symsOf_two h6 h3

/-- What `encTail` gives in the states of R29(a) (R79). -/
theorem encTail_of_lt {s : State} (h : s.encStash.toNat < 64) :
    encTail s = some (
      match s.encPhase with
      | 0 => []
      | 1 => [sym (s.encStash.setWidth 6), paddingByte, paddingByte]
      | 2 => [sym (s.encStash.setWidth 6), paddingByte]) := by
  have hs : symsOf [s.encStash] = some [sym (s.encStash.setWidth 6)] := symsOf_one h
  unfold encTail
  generalize s.encPhase = p
  match p with
  | 0 => rfl
  | 1 => simp [hs]
  | 2 => simp [hs]

/-- A failing DEC.BYTE (R86, R88): rolled back and recorded, or refused where MARK is no mark of this Buffer. -/
theorem decByteFails_cases (kind : ErrKind) (s : State) :
    (s.mark ≤ s.mem.length ∧ decByteFails kind s = .next
      { s with
        mem := s.mem.truncate s.mark, outCount := 0, err := kind, mode := .decFailed,
        responses := s.responses ++ [failResponse kind] }) ∨
    (s.mem.length < s.mark ∧ decByteFails kind s = .refused .invalidMark) := by
  rcases State.decfail_cases s kind with ⟨h, e⟩ | ⟨h, e⟩
  · exact .inl ⟨h, by simp [decByteFails, e, State.respond]⟩
  · exact .inr ⟨h, by simp [decByteFails, e]⟩

/-! ### Completing after the appends -/

/-- What a command that appends does after its last append: it changes registers of its own sub-block, and it
delivers one OK response (R75, R79, R89). -/
theorem heldDone_frame (c : HeldCmd) (s : State) :
    (∃ r, (heldDone c s).responses = s.responses ++ [r] ∧ r.res = .ok ∧ r.code = 0) ∧
    heldDone c s = { s with
      mode := (heldDone c s).mode, encPhase := (heldDone c s).encPhase, encStash := (heldDone c s).encStash,
      decPhase := (heldDone c s).decPhase, decValid := (heldDone c s).decValid,
      decStash := (heldDone c s).decStash, responses := (heldDone c s).responses } := by
  cases c with
  | encByte b => simp only [heldDone, encByteDone]; split <;> exact ⟨⟨_, rfl, rfl, rfl⟩, rfl⟩
  | encEnd => exact ⟨⟨_, rfl, rfl, rfl⟩, rfl⟩
  | decSymbol v => exact ⟨⟨_, rfl, rfl, rfl⟩, rfl⟩

/-- A command that appends leaves every Buffer byte outside the run of positions it appends to, whether it
completes or holds (R37, R42, R47). -/
theorem appendThen_read (vs : List Byte) (c : HeldCmd) (s : State) {a : Nat}
    (h : a < s.mem.length ∨ s.mem.length + vs.length ≤ a) :
    (appendThen vs c (heldDone c) s).mem.read a = s.mem.read a := by
  rcases appendThen_cases vs c (heldDone c) s with e | ⟨pre, v, left, rfl, _, e⟩
  · rw [e, (heldDone_frame c _).2, State.appended_frame]
    exact Memory.read_foldl_append _ _ h
  · rw [e, State.appended_frame]
    simp only [List.length_append, List.length_cons] at h
    exact Memory.read_foldl_append _ _ (by omega)

/-- A command that appends is its appends and then its register writes and response (R75, R79, R89). -/
theorem exec_of_appends {s : State} {i : Instr} {vs : List Byte} {cmd : HeldCmd} (h : s.appends i vs cmd) :
    exec i s = .next (appendThen vs cmd (heldDone cmd) s) := by
  obtain ⟨hf, ⟨b, rfl, hm, rfl, hv⟩ | ⟨rfl, hm, rfl, hv⟩ | ⟨b, v, rfl, hm, hp, hb, rfl, rfl⟩⟩ := h
  · rw [exec_eq_gate, gate_runs _ hf (by simp [legalIn, hm]) (by rfl)]
    simp only [ruleOf, encByteRule, hv]
    rfl
  · rw [exec_eq_gate, gate_runs _ hf (by simp [legalIn, hm]) (by rfl)]
    simp only [ruleOf, encEndRule, hv]
    rfl
  · rw [exec_eq_gate, gate_runs _ hf (by simp [legalIn, hm]) (by rfl)]
    simp only [ruleOf, decByteRule, hm, decByteOpen, hb, hp]
    rfl

/-! ### What a command can do -/

/-- What each rule can do when it answers a next state. The decoder's rules are those of a block in MODE DEC or
DEC_FAILED, which their checks have seen to. -/
theorem ruleOf_next {i : Instr} {s t : State} (h : ruleOf i s = .next t) :
    match i with
    | .encStart _ => t = { s with
        mode := .enc, encPhase := 0, encStash := 0, outCount := 0,
        hints := s.hints ++ [Config.reserveHint s.hints.length], responses := s.responses ++ [okResponse 0] }
    | .encByte b => ∃ vs, encSymbols b s = some vs ∧
        t = appendThen vs (.encByte b) (heldDone (.encByte b)) s
    | .encEnd _ => ∃ vs, encTail s = some vs ∧ t = appendThen vs .encEnd (heldDone .encEnd) s
    | .decStart _ => t = { s with
        mark := s.mem.length, decPhase := 0, decValid := 0, decPad := 0, decStash := 0, outCount := 0,
        err := .noError, mode := .dec, hints := s.hints ++ [Config.reserveHint s.hints.length],
        responses := s.responses ++ [okResponse 0] }
    | .decByte b =>
      (s.mode = .decFailed ∧ t = { s with responses := s.responses ++ [failResponse s.err] }) ∨
      (s.mode ≠ .decFailed ∧ ∃ kind,
        ((cls b = .invalid ∧ kind = .invalidCharacter) ∨
          ((∃ v, cls b = .valid v) ∧ s.decPad ≠ 0 ∧ kind = .misplacedPadding)) ∧
        s.mark ≤ s.mem.length ∧ t = { s with
          mem := s.mem.truncate s.mark, outCount := 0, err := kind, mode := .decFailed,
          responses := s.responses ++ [failResponse kind] }) ∨
      (s.mode ≠ .decFailed ∧ cls b = .padding ∧
        t = { s with decPad := s.decPad + 1, responses := s.responses ++ [okResponse 0] }) ∨
      (s.mode ≠ .decFailed ∧ s.decPad = 0 ∧ ∃ v, cls b = .valid v ∧
        t = appendThen (decEmit v s) (.decSymbol v) (heldDone (.decSymbol v)) s)
    | .decEnd _ =>
      (s.mode = .decFailed ∧ t = { s with mode := .idle, responses := s.responses ++ [failResponse s.err] }) ∨
      (s.mode ≠ .decFailed ∧ (s.decValid + s.decPad) % 4 ≠ 0 ∧ s.mark ≤ s.mem.length ∧ t = { s with
        mem := s.mem.truncate s.mark, outCount := 0, err := .incompleteGroup, mode := .idle,
        responses := s.responses ++ [failResponse .incompleteGroup] }) ∨
      (s.mode ≠ .decFailed ∧ (s.decValid + s.decPad) % 4 = 0 ∧
        t = { s with mode := .idle, responses := s.responses ++ [okResponse s.outCount] })
    | .mapEnc v => t = { s with responses := s.responses ++ [okResponse (sym (v.setWidth 6)).toNat] }
    | .mapDec b => t = { s with responses := s.responses ++ [okResponse (pack (cls b)).toNat] }
    | .status _ => t = { s with responses := s.responses ++ [okResponse (statusWord s).toNat] } := by
  cases i with
  | encStart x => cases h; rfl
  | encByte b =>
    simp only [ruleOf, encByteRule] at h
    split at h <;> cases h
    exact ⟨_, by assumption, rfl⟩
  | encEnd x =>
    simp only [ruleOf, encEndRule] at h
    split at h <;> cases h
    exact ⟨_, by assumption, rfl⟩
  | decStart x => cases h; rfl
  | decByte b =>
    have fails : ∀ kind, decByteFails kind s = .next t → s.mark ≤ s.mem.length ∧ t = { s with
        mem := s.mem.truncate s.mark, outCount := 0, err := kind, mode := .decFailed,
        responses := s.responses ++ [failResponse kind] } := by
      intro kind hk
      rcases decByteFails_cases kind s with ⟨hm, e⟩ | ⟨_, e⟩ <;> rw [e] at hk <;> cases hk
      exact ⟨hm, rfl⟩
    simp only [ruleOf, decByteRule] at h
    split at h
    · rename_i hm
      cases h
      exact .inl ⟨hm, rfl⟩
    · rename_i hm
      simp only [decByteOpen] at h
      cases hc : cls b with
      | invalid =>
        rw [hc] at h
        exact .inr (.inl ⟨hm, .invalidCharacter, .inl ⟨hc, rfl⟩, fails _ h⟩)
      | padding =>
        rw [hc] at h
        cases h
        exact .inr (.inr (.inl ⟨hm, hc, rfl⟩))
      | valid v =>
        simp only [hc] at h
        split at h
        · rename_i hp
          exact .inr (.inl ⟨hm, .misplacedPadding, .inr ⟨⟨v, hc⟩, hp, rfl⟩, fails _ h⟩)
        · rename_i hp
          cases h
          exact .inr (.inr (.inr ⟨hm, by simpa using hp, v, hc, rfl⟩))
  | decEnd x =>
    simp only [ruleOf, decEndRule] at h
    split at h
    · rename_i hm
      cases h
      exact .inl ⟨hm, rfl⟩
    · rename_i hm
      split at h
      · rename_i ht
        rcases State.decfail_cases s .incompleteGroup with ⟨hk, e⟩ | ⟨_, e⟩ <;> rw [e] at h <;> cases h
        exact .inr (.inl ⟨hm, ht, hk, rfl⟩)
      · rename_i ht
        cases h
        exact .inr (.inr ⟨hm, by omega, rfl⟩)
  | mapEnc v => cases h; rfl
  | mapDec b => cases h; rfl
  | status x => cases h; rfl

/-- What the checks of R59 tell of a command whose rule runs. -/
theorem executes_legal {i : Instr} {s : State} (h : verdict i s = .executes) :
    (s.fault = true ∧ i = .status 0) ∨
      (s.fault = false ∧ legalIn i s.mode = true ∧ i.wellFormed = true) := by
  rcases verdict_cases i s with ⟨hv, _⟩ | ⟨c, hv, _⟩ | ⟨_, ⟨hf, he⟩ | ⟨hf, hl, ho⟩⟩
  · simp [hv] at h
  · simp [hv] at h
  · refine .inl ⟨hf, ?_⟩
    cases i <;> simp_all [executesWhileFaulted]
  · exact .inr ⟨hf, hl, (operandFault_eq_none_iff i).1 ho⟩

/-- What a command can do when it answers a next state: the recorded fault answers, a fault is raised, or the
command's rule runs. -/
theorem exec_cases {i : Instr} {s t : State} (h : exec i s = .next t) :
    (s.fault = true ∧ t = s.answerFaulted) ∨
    (∃ c, s.fault = false ∧ c ≠ .noFault ∧ c ≠ .internalInvariant ∧ t = s.raiseFault c) ∨
    (verdict i s = .executes ∧ ruleOf i s = .next t) := by
  rw [exec_eq_gate] at h
  rcases gate_cases i (ruleOf i) s with ⟨hf, g⟩ | ⟨c, hf, h1, h2, g⟩ | ⟨hv, g⟩ <;> rw [g] at h
  · cases h; exact .inl ⟨hf, rfl⟩
  · cases h; exact .inr (.inl ⟨c, hf, h1, h2, rfl⟩)
  · exact .inr (.inr ⟨hv, h⟩)

end Sys2Proof.Machine
end

