-- ==== Sys2Proof/Laws/Decode.lean ====
section
/-!
SUPPORT. The two fields of a command word (R48) and what the decoder makes of them.
-/
namespace Sys2Proof

@[simp] theorem Word.opc_append (c d : Byte) : Word.opc (c ++ d) = c :=
  BitVec.extractLsb'_append_eq_left

@[simp] theorem Word.opd_append (c d : Byte) : Word.opd (c ++ d) = d :=
  BitVec.extractLsb'_append_eq_right

/-- A word is its two fields. -/
theorem Word.append_fields (w : Word) : Word.opc w ++ Word.opd w = w := by
  apply BitVec.eq_of_getLsbD_eq
  intro i hi
  simp only [Word.opc, Word.opd, BitVec.getLsbD_append, BitVec.getLsbD_extractLsb']
  by_cases h : i < 8
  · simp [h]
  · have : i - 8 < 8 := by omega
    simp [h, this, show 8 + (i - 8) = i by omega]

/-- What the decoder reads depends on OPC through the map and on OPD as it stands (R48). -/
theorem decode_eq (w : Word) :
    decode w = (opcodeMap.find? (fun r => r.opc == Word.opc w)).elim
      (.error (.illegalOpcode (Word.opc w))) (fun r => .ok (r.command (Word.opd w))) := by
  unfold decode
  cases opcodeMap.find? (fun r => r.opc == Word.opc w) <;> rfl

/-- No two rows of the map share an opcode, so a word has at most one reading (R50). -/
theorem opcodeMap_pairwise : opcodeMap.Pairwise (fun r q => r.opc ≠ q.opc) := by
  simp [opcodeMap]

end Sys2Proof
end

