-- ==== Sys2Proof/Laws/PerInstr.lean ====
section
/-!
SUPPORT. Facts about every command as syntax, one lemma per constructor: where the word holds its opcode and its
operand (R48), and that its operand raises a fault exactly when its form does not admit it (R49, R58, R68).
-/
namespace Sys2Proof.Laws

namespace WordFields

/-- The word of a command holds its opcode at 15:8 and its operand at 7:0 (R48). -/
def Statement (i : Instr) : Prop := Word.opc (encode i) = i.opcode ∧ Word.opd (encode i) = i.opd

theorem encStart (opd : Byte) : Statement (.encStart opd) := ⟨Word.opc_append _ _, Word.opd_append _ _⟩
theorem encByte (b : Byte) : Statement (.encByte b) := ⟨Word.opc_append _ _, Word.opd_append _ _⟩
theorem encEnd (opd : Byte) : Statement (.encEnd opd) := ⟨Word.opc_append _ _, Word.opd_append _ _⟩
theorem decStart (opd : Byte) : Statement (.decStart opd) := ⟨Word.opc_append _ _, Word.opd_append _ _⟩
theorem decByte (b : Byte) : Statement (.decByte b) := ⟨Word.opc_append _ _, Word.opd_append _ _⟩
theorem decEnd (opd : Byte) : Statement (.decEnd opd) := ⟨Word.opc_append _ _, Word.opd_append _ _⟩
theorem mapEnc (v : Byte) : Statement (.mapEnc v) := ⟨Word.opc_append _ _, Word.opd_append _ _⟩
theorem mapDec (b : Byte) : Statement (.mapDec b) := ⟨Word.opc_append _ _, Word.opd_append _ _⟩
theorem status (opd : Byte) : Statement (.status opd) := ⟨Word.opc_append _ _, Word.opd_append _ _⟩

end WordFields

namespace OperandCheck

/-- A command's operand raises a fault exactly when the command is ill formed (R49, R58, R68). -/
def Statement (i : Instr) : Prop := Machine.operandFault i = none ↔ i.wellFormed = true

theorem encStart (opd : Byte) : Statement (.encStart opd) := Machine.operandFault_eq_none_iff _
theorem encByte (b : Byte) : Statement (.encByte b) := Machine.operandFault_eq_none_iff _
theorem encEnd (opd : Byte) : Statement (.encEnd opd) := Machine.operandFault_eq_none_iff _
theorem decStart (opd : Byte) : Statement (.decStart opd) := Machine.operandFault_eq_none_iff _
theorem decByte (b : Byte) : Statement (.decByte b) := Machine.operandFault_eq_none_iff _
theorem decEnd (opd : Byte) : Statement (.decEnd opd) := Machine.operandFault_eq_none_iff _
theorem mapEnc (v : Byte) : Statement (.mapEnc v) := Machine.operandFault_eq_none_iff _
theorem mapDec (b : Byte) : Statement (.mapDec b) := Machine.operandFault_eq_none_iff _
theorem status (opd : Byte) : Statement (.status opd) := Machine.operandFault_eq_none_iff _

end OperandCheck

end Sys2Proof.Laws
end

