-- ==== Sys2Proof/Laws/Step.lean ====
section
/-!
SUPPORT. What a step can do, once and for all.
-/
namespace Sys2Proof.Machine

/-- What taking a command word can do: an illegal opcode is answered, or the decoded command is run (R51, R59). -/
theorem acceptWord_cases (w : Word) (s : State) :
    ((∃ e, decode w = .error e) ∧ acceptWord w s = .next (illegalOpcode s)) ∨
    (∃ i, decode w = .ok i ∧ acceptWord w s = exec i s) := by
  unfold acceptWord
  cases decode w with
  | ok i => exact .inr ⟨i, rfl, rfl⟩
  | error e => exact .inl ⟨⟨e, rfl⟩, rfl⟩

/-- A held command with no room for its next byte stays where it is (R47). -/
theorem resume_of_refused {s : State} {h : Hold} (hh : s.hold = some h) (hl : h.left ≠ [])
    (ha : s.accepts = false) : resume h s = s := by
  obtain ⟨bytes, left, cmd⟩ := h
  cases left with
  | nil => exact absurd rfl hl
  | cons v left =>
    have ha' : State.accepts { s with hold := none } = false := ha
    simp only [resume, appendFrom, appendAll, ha']
    simp [← hh]

/-- Left alone, the block waits, or a held command goes on (R47, R119). -/
theorem runHeld_cases (s : State) :
    (s.hold = none ∧ runHeld s = s) ∨ (∃ h, s.hold = some h ∧ runHeld s = resume h s) := by
  cases hh : s.hold with
  | none => exact .inl ⟨rfl, by simp [runHeld, hh]⟩
  | some h => exact .inr ⟨h, rfl, by simp [runHeld, hh]⟩

/-- What a step can do when it answers a next state: wait, go on with a held command, be reset, let the Buffer or
the host change what is theirs, or take a command word. -/
theorem step_cases {s t : State} (h : step s = .next t) :
    (s.script = [] ∧ s.hold = none ∧ t = s) ∨
    (∃ hd, s.hold = some hd ∧ t = resume hd s ∧ (s.script = [] ∨ ∃ w rest, s.script = .command w :: rest)) ∨
    (∃ rest, s.script = .wait :: rest ∧ t = runHeld { s with script := rest }) ∨
    (∃ rest, s.script = .reset :: rest ∧ t = State.resetBlock { s with script := rest }) ∨
    (∃ c rest, s.script = .setCapacity c :: rest ∧ t = { s with script := rest, capacity := c }) ∨
    (∃ bs rest, s.script = .putBuffer bs :: rest ∧ s.mode = .idle ∧ s.hold = none ∧
      t = { s with script := rest, mem := Memory.ofBytes bs }) ∨
    (∃ w rest, s.script = .command w :: rest ∧ s.hold = none ∧
      acceptWord w { s with script := rest } = .next t) := by
  unfold step advance at h
  split at h
  · rename_i hs
    cases h
    cases hh : s.hold with
    | none => exact .inl ⟨hs, rfl, by simp [runHeld, hh]⟩
    | some hd => exact .inr (.inl ⟨hd, rfl, by simp [runHeld, hh], .inl hs⟩)
  · rename_i rest hs
    cases h
    exact .inr (.inr (.inl ⟨rest, hs, rfl⟩))
  · rename_i rest hs
    cases h
    exact .inr (.inr (.inr (.inl ⟨rest, hs, rfl⟩)))
  · rename_i c rest hs
    cases h
    exact .inr (.inr (.inr (.inr (.inl ⟨c, rest, hs, rfl⟩))))
  · rename_i bs rest hs
    unfold putBuffer at h
    split at h
    · rename_i hc
      cases h
      exact .inr (.inr (.inr (.inr (.inr (.inl ⟨bs, rest, hs, hc.1, hc.2, rfl⟩)))))
    · cases h
  · rename_i w rest hs
    split at h
    · rename_i hd hh
      cases h
      exact .inr (.inl ⟨hd, hh, rfl, .inr ⟨w, rest, hs⟩⟩)
    · rename_i hh
      exact .inr (.inr (.inr (.inr (.inr (.inr ⟨w, rest, hs, hh, h⟩)))))

end Sys2Proof.Machine
end

