-- ==== Sys2Proof/Tests/Slice0.lean ====
section
/-!
SUPPORT. The model's own tests. Every expected value comes from the spec: the encodings of 30_encoding.md and the
vectors of 95_test_vectors.md, each named where it is used. Witnesses of the statements' hypotheses stand in
Tests/Witnesses.lean.
-/
namespace Sys2Proof.Tests
open Sys2Proof.Machine

/-! ## Small states -/

/-- The reset state with these bytes in the Buffer (R133). -/
def withBuf (bs : List Byte) : State := { State.reset with mem := Memory.ofBytes bs }

/-- An open encode call: phase, stash, bytes appended so far. -/
def encAt (p : Fin 3) (stash : Byte) (n : Nat) : State :=
  { State.reset with mode := .enc, encPhase := p, encStash := stash, outCount := n }

/-- An open decode call that began on an empty Buffer and has appended `bs`: phase, stash, padding. -/
def decAt (p : Fin 4) (stash : Byte) (pad : Nat) (bs : List Byte) : State :=
  { withBuf bs with
    mode := .dec, decPhase := p, decValid := p.val, decPad := pad, decStash := stash, outCount := bs.length }

/-- The state of V-DRAIN: a decode call over `T`, newline, rolled back to the Buffer [AA]. -/
def drained : State :=
  { withBuf [0xAA] with mode := .decFailed, err := .invalidCharacter, decPhase := 1, decValid := 1, decStash := 0x4C, mark := 1 }

/-- The state after the word 0x0000 from reset (V-FAULT). -/
def faulted : State := { State.reset with fault := true, faultCause := .illegalOpcode }

/-- What one step with the word `w` at the port gives, if it gives a next state. -/
def one (w : Word) (s : State) : Option State :=
  match step { s with script := [.command w] } with
  | .next t => some t
  | _ => none

/-- The last response of one command, as numbers (RES, CODE, DATA). -/
def answer (w : Word) (s : State) : Option (Nat × Nat × Nat) :=
  (one w s).bind fun t => t.responses.getLast?.map fun r => ((resCode r.res).toNat, r.code.toNat, r.data)

/-- The fault registers and MODE after one command, as numbers: the "after" column of V-FAULT. -/
def faultAfter (w : Word) (s : State) : Option (Bool × Nat × Nat) :=
  (one w s).map fun t => (t.fault, (causeCode t.faultCause).toNat, (modeCode t.mode).toNat)

/-! ## Well-formedness: a term each check refuses (R49) -/

theorem test_wf_zero_form_refuses_nonzero :
    (Instr.encStart 1).wellFormed = false ∧ (Instr.encEnd 0x80).wellFormed = false ∧
    (Instr.decStart 0xFF).wellFormed = false ∧ (Instr.decEnd 2).wellFormed = false ∧
    (Instr.status 0x80).wellFormed = false ∧ (Instr.status 0).wellFormed = true := by decide

theorem test_wf_sym6_refuses_64 :
    (Instr.mapEnc 64).wellFormed = false ∧ (Instr.mapEnc 255).wellFormed = false ∧
    (Instr.mapEnc 63).wellFormed = true ∧ (Instr.encByte 0xFF).wellFormed = true := by decide

/-! ## Decoding: one word for each command, written bit by bit from R48 and R50 -/

theorem test_decode_encStart : decode 0b0000000100000000#16 = .ok (.encStart 0) := rfl
theorem test_decode_encByte : decode 0b0000001001001101#16 = .ok (.encByte 0x4D) := rfl
theorem test_decode_encEnd : decode 0b0000001100000000#16 = .ok (.encEnd 0) := rfl
theorem test_decode_decStart : decode 0b0001000100000000#16 = .ok (.decStart 0) := rfl
theorem test_decode_decByte : decode 0b0001001001010100#16 = .ok (.decByte 0x54) := rfl
theorem test_decode_decEnd : decode 0b0001001100000000#16 = .ok (.decEnd 0) := rfl
theorem test_decode_mapEnc : decode 0b0010000100111111#16 = .ok (.mapEnc 63) := rfl
theorem test_decode_mapDec : decode 0b0010001001110101#16 = .ok (.mapDec 0x75) := rfl
theorem test_decode_status : decode 0b0011000000000000#16 = .ok (.status 0) := rfl

/-- The neighbours of the nine opcodes are illegal (the ranges of R51). -/
theorem test_decode_illegal :
    ([0x00FF, 0x0400, 0x1000, 0x1400, 0x2000, 0x2300, 0x2F00, 0x3100, 0xFF12] : List Word).all
      (fun w => (decode w).toOption.isNone) = true := by decide

theorem test_decodeTableWord :
    decodeTableWord 16 0x024D = some (.encByte 0x4D) ∧ decodeTableWord 16 0x0400 = none ∧
    decodeTableWord 24 0x024D = none := by decide

theorem test_withFetchWord_runs_first :
    (match step (State.reset.withFetchWord 16 0x0100) with | .next t => some t.mode | _ => none) = some .enc := by
  decide

/-! ## The commands, one step each -/

/-- R74 and its example; ERR and the decoder's registers are not touched. -/
theorem test_encStart_opens :
    (one 0x0100 { drained with mode := .idle, encPhase := 2, encStash := 0x3C, outCount := 9 }).map
      (fun t => (t.mode, t.encPhase, t.encStash, t.outCount, t.err, t.mark, t.hints.length)) =
    some (.enc, 0, 0, 0, .invalidCharacter, 1, 1) ∧ answer 0x0100 State.reset = some (0, 0, 0) := by and_intros <;> rfl

/-- V-FAULT: after enc.start, 0x0100; from reset, 0x0101. -/
theorem test_encStart_faults :
    answer 0x0100 (encAt 0 0 0) = some (2, 2, 0) ∧ faultAfter 0x0100 (encAt 0 0 0) = some (true, 2, 1) ∧
    answer 0x0101 State.reset = some (2, 3, 0) := by decide

/-- V-ENCSTEP, one row: phase, stash, byte, then appended bytes, stash and phase after. -/
def encStep (p : Fin 3) (stash : Byte) (b : Byte) : Option (List Byte × Byte × Fin 3) :=
  (one (0x02#8 ++ b) (encAt p stash 0)).map fun t => (t.buf, t.encStash, t.encPhase)

theorem test_encByte_rows :
    encStep 0 0 0xFF = some ([0x2F], 0x30, 1) ∧ encStep 0 0 0x80 = some ([0x67], 0x00, 1) ∧
    encStep 0 0 0x03 = some ([0x41], 0x30, 1) ∧ encStep 1 0x10 0x61 = some ([0x57], 0x04, 2) ∧
    encStep 1 0x00 0x0F = some ([0x41], 0x3C, 2) ∧ encStep 2 0x04 0x6E = some ([0x46, 0x75], 0, 0) ∧
    encStep 2 0x00 0xC0 = some ([0x44, 0x41], 0, 0) ∧ encStep 2 0x00 0x3F = some ([0x41, 0x2F], 0, 0) := by and_intros <;> rfl

/-- V-FAULT: 0x0241 in IDLE and in DEC; R75: the count of the response. -/
theorem test_encByte_responses :
    answer 0x0241 State.reset = some (2, 2, 0) ∧ faultAfter 0x0241 (decAt 0 0 0 []) = some (true, 2, 2) ∧
    answer 0x026E (encAt 2 0x04 2) = some (0, 0, 2) := by decide

/-- X2: ENC.END after one byte 0x4D appends `Q==` and answers 4. -/
theorem test_encEnd_pads :
    (one 0x0300 { withBuf [0x54] with mode := .enc, encPhase := 1, encStash := 0x10, outCount := 1 }).map
      (fun t => (t.buf, t.mode, t.encPhase, t.encStash, t.outCount)) =
    some ([0x54, 0x51, 0x3D, 0x3D], .idle, 0, 0, 4) ∧
    answer 0x0300 (encAt 1 0x10 1) = some (0, 0, 4) := by decide

/-- X1: the empty call; X3: the tail of phase 2. -/
theorem test_encEnd_empty_and_phase2 :
    answer 0x0300 (encAt 0 0 0) = some (0, 0, 0) ∧
    (one 0x0300 (encAt 2 0x04 2)).map (·.buf) = some [0x45, 0x3D] := by decide

/-- R84's example, with registers of an earlier call still set. -/
theorem test_decStart_marks :
    (one 0x1100 { drained with mode := .idle, mark := 0, decPad := 3, outCount := 5 }).map
      (fun t => (t.mode, t.mark, t.decPhase, t.decValid, t.decPad, t.decStash, t.outCount, t.err)) =
    some (.dec, 1, 0, 0, 0, 0, 0, .noError) := rfl

/-- V-FAULT: after enc.start, 0x1100; V-DRAIN: dec.start in DEC_FAILED. -/
theorem test_decStart_faults :
    faultAfter 0x1100 (encAt 0 0 0) = some (true, 2, 1) ∧ faultAfter 0x1100 drained = some (true, 2, 3) ∧
    answer 0x1100 State.reset = some (0, 0, 0) := by decide

/-- V-DECSTEP, one row: the state and the byte, then response, Buffer, phase, stash, padding and MODE after. -/
def decStep (s : State) (b : Byte) : Option ((Nat × Nat × Nat) × List Byte × Fin 4 × Byte × Nat × Mode) :=
  (answer (0x12#8 ++ b) s).bind fun r =>
    (one (0x12#8 ++ b) s).map fun t => (r, t.buf, t.decPhase, t.decStash, t.decPad, t.mode)

theorem test_decByte_rows :
    decStep (decAt 0 0 0 []) 0x54 = some ((0, 0, 0), [], 1, 0x4C, 0, .dec) ∧
    decStep (decAt 1 0x4C 0 []) 0x57 = some ((0, 0, 1), [0x4D], 2, 0x60, 0, .dec) ∧
    decStep (decAt 2 0xF0 0 [0xFF]) 0x2F = some ((0, 0, 1), [0xFF, 0xFF], 3, 0xC0, 0, .dec) ∧
    decStep (decAt 3 0x40 0 [0x4D, 0x61]) 0x75 = some ((0, 0, 1), [0x4D, 0x61, 0x6E], 0, 0, 0, .dec) ∧
    decStep (decAt 2 0 1 [0x4D]) 0x3D = some ((0, 0, 0), [0x4D], 2, 0, 2, .dec) ∧
    decStep (decAt 2 0 1 [0x4D]) 0x41 = some ((1, 2, 0), [], 2, 0, 1, .decFailed) ∧
    decStep (decAt 2 0 1 [0x4D]) 0x0A = some ((1, 1, 0), [], 2, 0, 1, .decFailed) := by and_intros <;> rfl

/-- V-DRAIN: any byte is drained; V-FAULT: a DEC.BYTE in IDLE is out of sequence. -/
theorem test_decByte_drained :
    decStep drained 0x41 = some ((1, 1, 0), [0xAA], 1, 0x4C, 0, .decFailed) ∧
    decStep drained 0x3D = some ((1, 1, 0), [0xAA], 1, 0x4C, 0, .decFailed) ∧
    answer 0x1241 State.reset = some (2, 2, 0) := by and_intros <;> rfl

/-- X10: `TQ=` ends with IncompleteGroup and the pre-call Buffer; ERR is recorded and MODE is IDLE. -/
theorem test_decEnd_incomplete :
    (one 0x1300 { withBuf [0xAA, 0x4D] with mode := .dec, mark := 1, decPhase := 2, decValid := 2, decPad := 1, outCount := 1 }).map
      (fun t => (t.buf, t.mode, t.err, t.outCount)) = some ([0xAA], .idle, .incompleteGroup, 0) ∧
    answer 0x1300 (decAt 2 0 1 [0x4D]) = some (1, 3, 0) := by decide

/-- X6: `TQ==` succeeds with count 1; V-DRAIN: dec.end gives the recorded kind; V-FAULT: 0x1300 in IDLE. -/
theorem test_decEnd_results :
    answer 0x1300 (decAt 2 0 2 [0x4D]) = some (0, 0, 1) ∧ answer 0x1300 drained = some (1, 1, 0) ∧
    (one 0x1300 drained).map (·.mode) = some .idle ∧ answer 0x1300 State.reset = some (2, 2, 0) := by decide

/-- V-MAP: the ends of every range, and the first value outside. -/
theorem test_mapEnc_rows :
    answer 0x2100 State.reset = some (0, 0, 0x41) ∧ answer 0x2119 State.reset = some (0, 0, 0x5A) ∧
    answer 0x211A State.reset = some (0, 0, 0x61) ∧ answer 0x2133 State.reset = some (0, 0, 0x7A) ∧
    answer 0x2134 State.reset = some (0, 0, 0x30) ∧ answer 0x213D State.reset = some (0, 0, 0x39) ∧
    answer 0x213E State.reset = some (0, 0, 0x2B) ∧ answer 0x213F State.reset = some (0, 0, 0x2F) ∧
    answer 0x2140 State.reset = some (2, 4, 0) ∧ faultAfter 0x2140 State.reset = some (true, 4, 0) := by decide

/-- V-MAP: each range's ends and their neighbours, and padding. -/
theorem test_mapDec_rows :
    [0x00, 0x0A, 0x2A, 0x2C, 0x2D, 0x2E, 0x3A, 0x40, 0x5B, 0x5F, 0x60, 0x7B, 0x80, (0xFF : Byte)].all
      (fun b => answer (0x22#8 ++ b) State.reset == some (0, 0, 64)) = true ∧
    answer 0x222B State.reset = some (0, 0, 62) ∧ answer 0x222F State.reset = some (0, 0, 63) ∧
    answer 0x2230 State.reset = some (0, 0, 52) ∧ answer 0x2239 State.reset = some (0, 0, 61) ∧
    answer 0x2241 drained = some (0, 0, 0) ∧ answer 0x225A State.reset = some (0, 0, 25) ∧
    answer 0x2261 State.reset = some (0, 0, 26) ∧ answer 0x227A State.reset = some (0, 0, 51) ∧
    answer 0x223D State.reset = some (0, 0, 128) := by decide

/-- V-STATUS and V-DRAIN. -/
theorem test_status_rows :
    answer 0x3000 State.reset = some (0, 0, 0x0000) ∧ answer 0x3000 (encAt 2 0 2) = some (0, 0, 0x0201) ∧
    answer 0x3000 (decAt 1 0x4C 0 []) = some (0, 0, 0x0402) ∧
    answer 0x3000 (decAt 2 0 1 [0x4D]) = some (0, 0, 0x3802) ∧ answer 0x3000 drained = some (0, 0, 0x0407) ∧
    answer 0x3080 State.reset = some (2, 3, 0) := by decide

/-- V-FAULT and R59: STATUS while faulted, and with a nonzero operand. -/
theorem test_status_faulted :
    answer 0x3000 faulted = some (0, 0, 0x0030) ∧ answer 0x3001 faulted = some (2, 1, 0) ∧
    faultAfter 0x3001 faulted = some (true, 1, 0) := by decide

/-! ## Faults, reset, the hold, the host -/

/-- V-FAULT: illegal opcodes; and an earlier fault keeps its cause (R110). -/
theorem test_illegal_opcode :
    answer 0x0000 State.reset = some (2, 1, 0) ∧ answer 0xFF12 State.reset = some (2, 1, 0) ∧
    faultAfter 0x0400 State.reset = some (true, 1, 0) ∧ answer 0x2140 faulted = some (2, 1, 0) ∧
    faultAfter 0x2140 faulted = some (true, 1, 0) := by decide

/-- R59: MODE is checked before the operand. -/
theorem test_mode_before_operand : answer 0x1301 State.reset = some (2, 2, 0) := by decide

/-- R121: reset inside a decode call keeps the appended bytes and clears MARK. -/
theorem test_reset_abandons_the_call :
    (match step { decAt 2 0 1 [0x4D] with fault := true, faultCause := .reservedOperand, script := [.reset] } with
      | .next t => some (t.mode, t.fault, t.faultCause, t.decPhase, t.decPad, t.outCount, t.mark, t.buf)
      | _ => none) = some (.idle, false, .noFault, 0, 0, 0, 0, [0x4D]) := rfl

/-- R47: a Buffer with room for one byte stops ENC.BYTE of phase 2 after its first append, with no response. -/
theorem test_hold_after_one_append :
    (one 0x026E { encAt 2 0x04 2 with capacity := some 1 }).map
      (fun t => (t.buf, t.hold, t.encPhase, t.outCount, t.responses)) =
    some ([0x46], some ⟨[0x46, 0x75], [0x75], .encByte 0x6E⟩, 2, 3, []) := by decide

/-- R47: when the Buffer accepts again, the held command goes on and completes. -/
theorem test_hold_resumes :
    (match step { encAt 2 0x04 3 with mem := [(0, 0x46)], hold := some ⟨[0x46, 0x75], [0x75], .encByte 0x6E⟩ } with
      | .next t => some (t.buf, t.hold, t.encPhase, t.encStash, t.outCount, t.responses)
      | _ => none) = some ([0x46, 0x75], none, 0, 0, 4, [⟨.ok, 0, 2⟩]) := rfl

/-- R120, I10: a reset drops a held command; what it leaves of that command's own appends is a draw, and is counted. -/
theorem test_reset_drops_a_held_command :
    (match step { encAt 2 0x04 3 with
        mem := [(0, 0x46)], hold := some ⟨[0x46, 0x75], [0x75], .encByte 0x6E⟩, script := [.reset] } with
      | .next t => some (t.hold, t.mode, t.encPhase, t.outCount, t.cuts)
      | _ => none) = some (none, .idle, 0, 0, 1) := rfl

/-- R125: the host may rewrite the Buffer between calls, not inside one. -/
theorem test_putBuffer :
    (match step { State.reset with script := [.putBuffer [1, 2]] } with | .next t => some t.mem | _ => none) =
      some [(0, 1), (1, 2)] ∧
    (match step { encAt 0 0 0 with script := [.putBuffer []] } with | .refused r => some r | _ => none) =
      some .bufferNotOwned := by decide

/-- V-WIRE with COUNT_WIDTH = 27. -/
theorem test_wire_rows :
    wire 27 ⟨.ok, 0, 0x50⟩ = some 0x00000050#32 ∧ wire 27 ⟨.decfail, 2, 0⟩ = some 0x50000000#32 ∧
    wire 27 ⟨.fault, 1, 0⟩ = some 0x88000000#32 ∧ wire 27 ⟨.fault, 4, 0⟩ = some 0xA0000000#32 ∧
    wire 16 ⟨.ok, 0, 0x10000⟩ = none := by decide

/-! ## The notation (R61, R62) -/

theorem test_assemble_commands :
    assembleLine "enc.start                 ; 0x0100".toList = some [.encStart 0] ∧
    assembleLine "enc.byte 'M'".toList = some [.encByte 0x4D] ∧
    assembleLine "DEC.BYTE '\\n'".toList = some [.decByte 0x0A] ∧
    assembleLine "map.dec 61".toList = some [.mapDec 0x3D] ∧
    assembleLine "status 0x01".toList = some [.status 1] ∧
    assembleLine "map.enc 256".toList = none ∧ assembleLine "enc.byte".toList = none := by decide

theorem test_assemble_pseudo :
    assembleLine "encode 0x4D, 0x61".toList = some [.encStart 0, .encByte 0x4D, .encByte 0x61, .encEnd 0] ∧
    assembleLine "encode".toList = some [.encStart 0, .encEnd 0] ∧
    assembleLine "decode \"T;\\x80\"".toList =
      some [.decStart 0, .decByte 0x54, .decByte 0x3B, .decByte 0x80, .decEnd 0] ∧
    assembleLine "dec.str \"\"".toList = some [] := by decide

end Sys2Proof.Tests
end

