-- ==== Sys2Proof/Tests/Witnesses.lean ====
section
/-!
SUPPORT. For each statement with hypotheses, a concrete state and operands that meet all of them together, clause
by clause, at a value on the boundary of each clause's range. `witness_<statement>_<clause>` names the clause.
-/
namespace Sys2Proof.Tests
open Sys2Proof.Machine

/-- A Buffer with room for exactly `n` more bytes has room for `n`. -/
theorem roomFor_exactly {s : State} {n : Nat} (h : s.capacity = some (s.cursor + n)) : s.roomFor n := by
  intro c hc
  rw [h] at hc
  cases hc
  exact Nat.le_refl _

/-- A state with one command word at the port. -/
def at' (w : Word) (s : State) : State := { s with script := [.command w] }

/-! ## Reset, faults, checks -/

theorem witness_ResetSetsEveryRegister :
    ∃ s rest, (s : State).script = .reset :: rest ∧ s.mode ≠ .idle ∧ s.fault = true :=
  ⟨{ decAt 2 0 1 [0x4D] with fault := true, faultCause := .reservedOperand, script := [.reset] }, [], by decide⟩

/-- A command held on a full Buffer after one byte of an earlier command, with another command waiting. -/
def heldFull : State :=
  { encAt 1 0x10 3 with
    mem := [(0, 0x54), (1, 0x51), (2, 0x3D)], capacity := some 3,
    hold := some ⟨[0x51, 0x3D, 0x3D], [0x3D], .encEnd⟩, script := [.command 0x3000] }

/-- Reset of a failed decode call with no command held. -/
theorem witness_ResetSetsEveryRegister_noHold :
    ∃ s rest, (s : State).script = .reset :: rest ∧ s.hold = none ∧ s.mode = .decFailed :=
  ⟨{ drained with script := [.reset] }, [], by decide⟩

theorem witness_ResetSetsEveryRegister_held :
    ∃ s rest h base done, (s : State).script = .reset :: rest ∧ s.hold = some h ∧ s.buf = base ++ done ∧
      h.bytes = done ++ h.left ∧ base ≠ [] ∧ done ≠ [] :=
  ⟨{ heldFull with script := [.reset] }, [], ⟨[0x51, 0x3D, 0x3D], [0x3D], .encEnd⟩, [0x54], [0x51, 0x3D],
    rfl, rfl, rfl, rfl, by decide, by decide⟩

theorem witness_FaultedBlock_word :
    ∃ s w rest, (s : State).fault = true ∧ s.hold = none ∧ s.script = .command w :: rest ∧ w ≠ 0x3000 :=
  ⟨at' 0x3001 faulted, 0x3001, [], by decide⟩

theorem witness_FaultedBlock_status :
    ∃ s w rest, (s : State).fault = true ∧ s.hold = none ∧ s.script = .command w :: rest ∧ w = 0x3000 :=
  ⟨at' 0x3000 faulted, 0x3000, [], by decide⟩

theorem witness_FaultedBlock_step :
    ∃ s t, (s : State).fault = true ∧ step s = .next t ∧ ∀ rest, s.script ≠ .reset :: rest :=
  ⟨at' 0x2140 faulted, _, rfl, rfl, by intro rest h; cases h⟩

theorem witness_IllegalOpcode :
    ∃ s w rest, (s : State).fault = false ∧ s.hold = none ∧ s.script = .command w :: rest ∧
      w.extractLsb' 8 8 ∉ ([0x01, 0x02, 0x03, 0x11, 0x12, 0x13, 0x21, 0x22, 0x30] : List Byte) :=
  ⟨at' 0x04FF (encAt 1 0x30 1), 0x04FF, [], by decide⟩

theorem witness_CallBracketing_start : (encAt 0 0 0).fault = false ∧ (encAt 0 0 0).mode ≠ .idle := by decide
theorem witness_CallBracketing_enc : drained.fault = false ∧ drained.mode ≠ .enc := by decide
theorem witness_CallBracketing_dec :
    State.reset.fault = false ∧ State.reset.mode ≠ .dec ∧ State.reset.mode ≠ .decFailed := by decide

theorem witness_CallBracketing_mapper :
    ∃ t, exec (.mapEnc 64) (encAt 1 0x30 1) = .next t ∧ t.fault = true := ⟨_, rfl, rfl⟩

theorem witness_ChecksRun_illegal :
    (at' 0x1400 drained).fault = false ∧ (at' 0x1400 drained).hold = none ∧
    (at' 0x1400 drained).script = [.command 0x1400] ∧ ∀ i, decode 0x1400 ≠ .ok i :=
  ⟨rfl, rfl, rfl, by intro i h; cases h⟩

theorem witness_ChecksRun_mode : decode 0x0141 = .ok (.encStart 0x41) ∧ legalIn (.encStart 0x41) .dec = false :=
  ⟨rfl, rfl⟩

theorem witness_ChecksRun_operand :
    decode 0x0301 = .ok (.encEnd 1) ∧ legalIn (.encEnd 1) .enc = true ∧ (Instr.encEnd 1).form = .zero ∧
    (Instr.encEnd 1).opd ≠ 0 := ⟨rfl, rfl, rfl, by decide⟩

theorem witness_ChecksRun_range :
    decode 0x2140 = .ok (.mapEnc 64) ∧ legalIn (.mapEnc 64) .idle = true ∧ (Instr.mapEnc 64).form = .sym6 ∧
    64 ≤ (Instr.mapEnc 64).opd.toNat := ⟨rfl, rfl, rfl, by decide⟩

theorem witness_ChecksRun_executes :
    decode 0x213F = .ok (.mapEnc 63) ∧ legalIn (.mapEnc 63) .decFailed = true ∧
    (Instr.mapEnc 63).wellFormed = true := ⟨rfl, rfl, rfl⟩

theorem witness_EncodeOfDecode : decode 0x13FF = .ok (.decEnd 0xFF) := rfl

theorem witness_PseudoInstructions_hex :
    digitValue 16 '8' = some 8 ∧ digitValue 16 'F' = some 15 ∧ digitValue 16 'f' = some 15 := by decide

theorem witness_StepRuns :
    ∃ s w rest i, (s : State).hold = none ∧ s.script = .command w :: rest ∧ decode w = .ok i :=
  ⟨at' 0x2261 drained, 0x2261, [], .mapDec 0x61, rfl, rfl, rfl⟩

/-! ## Encoder -/

theorem witness_EncStart_opens : State.reset.fault = false ∧ State.reset.mode = .idle := by decide
theorem witness_EncStart_inCall : drained.fault = false ∧ drained.mode ≠ .idle := by decide
theorem witness_EncStart_operand : State.reset.fault = false ∧ State.reset.mode = .idle ∧ (0xFF : Byte) ≠ 0 := by decide

/-- An open encode call whose Buffer has room for exactly `n` bytes. -/
def encTight (p : Fin 3) (stash : Byte) (n : Nat) : State := { encAt p stash 0 with capacity := some n }

theorem witness_EncByteInPhase0 :
    (encTight 0 0 1).fault = false ∧ (encTight 0 0 1).mode = .enc ∧ (encTight 0 0 1).encPhase = 0 ∧
    (encTight 0 0 1).roomFor 1 := ⟨rfl, rfl, rfl, roomFor_exactly rfl⟩

theorem witness_EncByteInPhase1 :
    (encTight 1 0x3F 1).fault = false ∧ (encTight 1 0x3F 1).mode = .enc ∧ (encTight 1 0x3F 1).encPhase = 1 ∧
    (encTight 1 0x3F 1).encStash.toNat < 64 ∧ (encTight 1 0x3F 1).roomFor 1 :=
  ⟨rfl, rfl, rfl, by decide, roomFor_exactly rfl⟩

theorem witness_EncByteInPhase2 :
    (encTight 2 0x3C 2).fault = false ∧ (encTight 2 0x3C 2).mode = .enc ∧ (encTight 2 0x3C 2).encPhase = 2 ∧
    (encTight 2 0x3C 2).encStash.toNat < 64 ∧ (encTight 2 0x3C 2).roomFor 2 :=
  ⟨rfl, rfl, rfl, by decide, roomFor_exactly rfl⟩

theorem witness_EncEnd_phase0 :
    (encTight 0 0 0).fault = false ∧ (encTight 0 0 0).mode = .enc ∧ (encTight 0 0 0).encPhase = 0 := by decide

theorem witness_EncEnd_phase1 :
    (encTight 1 0x30 3).mode = .enc ∧ (encTight 1 0x30 3).encPhase = 1 ∧
    (encTight 1 0x30 3).encStash.toNat < 64 ∧ (encTight 1 0x30 3).roomFor 3 :=
  ⟨rfl, rfl, by decide, roomFor_exactly rfl⟩

theorem witness_EncEnd_phase2 :
    (encTight 2 0x3C 2).mode = .enc ∧ (encTight 2 0x3C 2).encPhase = 2 ∧
    (encTight 2 0x3C 2).encStash.toNat < 64 ∧ (encTight 2 0x3C 2).roomFor 2 :=
  ⟨rfl, rfl, by decide, roomFor_exactly rfl⟩

theorem witness_EncEnd_noCall : State.reset.fault = false ∧ State.reset.mode ≠ .enc := by decide
theorem witness_EncEnd_operand : (encAt 1 0x30 1).fault = false ∧ (encAt 1 0x30 1).mode = .enc ∧ (1 : Byte) ≠ 0 := by decide

theorem witness_EncoderFrame_start : ∃ t, exec (.encStart 0) drained = .next t := ⟨_, rfl⟩
theorem witness_EncoderFrame_byte : ∃ t, exec (.encByte 0x6E) (encTight 2 0x04 1) = .next t ∧ t.hold ≠ none :=
  ⟨_, rfl, by decide⟩
theorem witness_EncoderFrame_end : ∃ t, exec (.encEnd 0) (encAt 1 0x10 1) = .next t ∧ t.mode = .idle := ⟨_, rfl, rfl⟩

theorem witness_EncoderKeepsThePrecondition :
    ∃ t, (encAt 1 0x3F 1).encStash.toNat < 64 ∧ (encAt 1 0x3F 1).fault = false ∧
      exec (.encStart 0) (encAt 1 0x3F 1) = .next t ∧ t.fault = true := ⟨_, by decide, rfl, rfl, rfl⟩

/-! ## Decoder -/

theorem witness_DecStart_opens : (withBuf [0xAA]).fault = false ∧ (withBuf [0xAA]).mode = .idle := by decide
theorem witness_DecStart_inCall : (encAt 0 0 0).fault = false ∧ (encAt 0 0 0).mode ≠ .idle := by decide

/-- R125's boundary: a call that has appended nothing has MARK = CURSOR. -/
theorem witness_DecByteInvalid :
    (decAt 0 0 0 []).fault = false ∧ (decAt 0 0 0 []).mode = .dec ∧ (decAt 0 0 0 []).mark ≤ (decAt 0 0 0 []).cursor ∧
    cls 0x5B = .invalid := by decide

theorem witness_DecBytePadding :
    (decAt 2 0 0 [0x4D]).fault = false ∧ (decAt 2 0 0 [0x4D]).mode = .dec ∧ cls 0x3D = .padding := by decide

theorem witness_DecByteAfterPadding :
    (decAt 2 0 1 [0x4D]).fault = false ∧ (decAt 2 0 1 [0x4D]).mode = .dec ∧
    (decAt 2 0 1 [0x4D]).mark ≤ (decAt 2 0 1 [0x4D]).cursor ∧ cls 0x2F = .valid 63 ∧
    (decAt 2 0 1 [0x4D]).decPad ≠ 0 := by decide

/-- An open decode call whose Buffer has room for exactly one byte. -/
def decTight (p : Fin 4) (stash : Byte) (bs : List Byte) : State :=
  { decAt p stash 0 bs with capacity := some (bs.length + 1) }

theorem witness_DecByteValid_phase0 :
    (decAt 0 0 0 []).fault = false ∧ (decAt 0 0 0 []).mode = .dec ∧ cls 0x41 = .valid 0 ∧
    (decAt 0 0 0 []).decPad = 0 ∧ (decAt 0 0 0 []).decPhase = 0 := by decide

theorem witness_DecByteValid_phase1 :
    (decTight 1 0xFC []).mode = .dec ∧ cls 0x2F = .valid 63 ∧ (decTight 1 0xFC []).decPad = 0 ∧
    (decTight 1 0xFC []).decPhase = 1 ∧ (decTight 1 0xFC []).roomFor 1 :=
  ⟨rfl, rfl, rfl, rfl, roomFor_exactly rfl⟩

theorem witness_DecByteValid_phase2 :
    (decTight 2 0xF0 [0xFF]).mode = .dec ∧ cls 0x2B = .valid 62 ∧ (decTight 2 0xF0 [0xFF]).decPad = 0 ∧
    (decTight 2 0xF0 [0xFF]).decPhase = 2 ∧ (decTight 2 0xF0 [0xFF]).roomFor 1 :=
  ⟨rfl, rfl, rfl, rfl, roomFor_exactly rfl⟩

theorem witness_DecByteValid_phase3 :
    (decTight 3 0xC0 [0xFF, 0xFF]).mode = .dec ∧ cls 0x30 = .valid 52 ∧ (decTight 3 0xC0 [0xFF, 0xFF]).decPad = 0 ∧
    (decTight 3 0xC0 [0xFF, 0xFF]).decPhase = 3 ∧ (decTight 3 0xC0 [0xFF, 0xFF]).roomFor 1 :=
  ⟨rfl, rfl, rfl, rfl, roomFor_exactly rfl⟩

theorem witness_DecByteIsDrained : drained.fault = false ∧ drained.mode = .decFailed := by decide

theorem witness_DecEnd_failed : drained.fault = false ∧ drained.mode = .decFailed := by decide
theorem witness_DecEnd_incomplete :
    (decAt 2 0 1 [0x4D]).mode = .dec ∧ ((decAt 2 0 1 [0x4D]).decValid + (decAt 2 0 1 [0x4D]).decPad) % 4 ≠ 0 ∧
    (decAt 2 0 1 [0x4D]).mark ≤ (decAt 2 0 1 [0x4D]).cursor := by decide
theorem witness_DecEnd_complete :
    (decAt 2 0 2 [0x4D]).mode = .dec ∧ ((decAt 2 0 2 [0x4D]).decValid + (decAt 2 0 2 [0x4D]).decPad) % 4 = 0 := by decide
theorem witness_DecEnd_noCall :
    (encAt 0 0 0).fault = false ∧ (encAt 0 0 0).mode ≠ .dec ∧ (encAt 0 0 0).mode ≠ .decFailed := by decide
theorem witness_DecEnd_operand :
    drained.fault = false ∧ (drained.mode = .dec ∨ drained.mode = .decFailed) ∧ (0x80 : Byte) ≠ 0 := by decide

theorem witness_DecoderFrame_start : ∃ t, exec (.decStart 0) (withBuf [0xAA]) = .next t ∧ t.mode = .dec := ⟨_, rfl, rfl⟩

theorem witness_DecoderFrame_invalid :
    ∃ t, exec (.decByte 0x0A) (decAt 2 0 0 [0x4D]) = .next t ∧ (decAt 2 0 0 [0x4D]).fault = false ∧
      (decAt 2 0 0 [0x4D]).mode = .dec ∧ cls 0x0A = .invalid ∧ (decAt 2 0 0 [0x4D]).mem.wf :=
  ⟨_, rfl, rfl, rfl, rfl, rfl⟩

theorem witness_DecoderFrame_misplaced :
    ∃ t, exec (.decByte 0x41) (decAt 2 0 1 [0x4D]) = .next t ∧ (decAt 2 0 1 [0x4D]).mode = .dec ∧
      cls 0x41 ≠ .padding ∧ (decAt 2 0 1 [0x4D]).decPad ≠ 0 ∧ (decAt 2 0 1 [0x4D]).mem.wf :=
  ⟨_, rfl, rfl, by decide, by decide, rfl⟩

theorem witness_DecoderFrame_symbol :
    ∃ t, exec (.decByte 0x57) (decAt 1 0x4C 0 []) = .next t ∧ cls 0x57 = .valid 22 ∧
      (decAt 1 0x4C 0 []).decPad = 0 := ⟨_, rfl, rfl, rfl⟩

theorem witness_DecoderFrame_end :
    ∃ t, exec (.decEnd 0) (decAt 2 0 1 [0x4D]) = .next t ∧ (decAt 2 0 1 [0x4D]).mem.wf ∧
      ((decAt 2 0 1 [0x4D]).decValid + (decAt 2 0 1 [0x4D]).decPad) % 4 ≠ 0 := ⟨_, rfl, rfl, by decide⟩

theorem witness_DecoderFrame_endComplete :
    ∃ t, exec (.decEnd 0) (decAt 2 0 2 [0x4D]) = .next t ∧ t.mode = .idle := ⟨_, rfl, rfl⟩

/-! ## Mapper and status -/

/-- The last value of each range and the first of the next: no value falls under two clauses of the table. -/
theorem witness_AlphabetIsTheFiveRanges :
    (25#6).toNat ≤ 25 ∧ 26 ≤ (26#6).toNat ∧ (51#6).toNat ≤ 51 ∧ 52 ≤ (52#6).toNat ∧ (61#6).toNat ≤ 61 := by decide

theorem witness_MapperLaws : sym 63 = sym 63 ∧ cls 0x2F = .valid 63 ∧ cls 0x3D = .padding := by decide
theorem witness_MapEnc_legal : State.reset.fault = false ∧ (63 : Byte).toNat < 64 := by decide
theorem witness_MapEnc_outOfRange : State.reset.fault = false ∧ 64 ≤ (64 : Byte).toNat := by decide
theorem witness_MapDec : drained.fault = false := rfl
theorem witness_Status_operand : State.reset.fault = false ∧ (0x80 : Byte) ≠ 0 := by decide
theorem witness_Status_faultedOperand : faulted.fault = true ∧ (1 : Byte) ≠ 0 := by decide

/-! ## Port, Buffer, hold -/

theorem witness_BlockWaits : drained.script = [] ∧ drained.hold = none := by decide

theorem witness_OneResponse_delivered :
    ∃ t, (at' 0x1254 (decAt 0 0 0 [])).hold = none ∧ step (at' 0x1254 (decAt 0 0 0 [])) = .next t ∧ t.hold = none :=
  ⟨_, rfl, rfl, rfl⟩

theorem witness_OneResponse_held :
    ∃ t, (at' 0x0300 (encTight 1 0x10 2)).hold = none ∧ step (at' 0x0300 (encTight 1 0x10 2)) = .next t ∧
      t.hold ≠ none := ⟨_, rfl, rfl, by decide⟩

/-- Room for two of the three bytes of ENC.END in phase 1: it holds before the last padding byte. -/
theorem witness_RefusedAppend_holds :
    ∃ t h, (encTight 1 0x10 2).hold = none ∧ exec (.encEnd 0) (encTight 1 0x10 2) = .next t ∧ t.hold = some h :=
  ⟨_, ⟨[0x51, 0x3D, 0x3D], [0x3D], .encEnd⟩, rfl, rfl, rfl⟩

/-- A Buffer already full when DEC.BYTE has its byte to append: none of its appends is done. -/
theorem witness_RefusedAppend_holdsAtOnce :
    ∃ t h, exec (.decByte 0x57) { decAt 1 0x4C 0 [] with capacity := some 0 } = .next t ∧ t.hold = some h ∧
      h.left = h.bytes := ⟨_, ⟨[0x4D], [0x4D], .decSymbol 22⟩, rfl, rfl, rfl⟩

theorem witness_RefusedAppend_waits :
    heldFull.hold = some ⟨[0x51, 0x3D, 0x3D], [0x3D], .encEnd⟩ ∧ heldFull.accepts = false ∧
    ∃ w rest, heldFull.script = .command w :: rest := ⟨rfl, rfl, _, _, rfl⟩

/-- One byte short: two of the three bytes of ENC.END fit. -/
theorem witness_RefusedAppend_oneShort :
    ∃ s vs c, (s : State).hold = none ∧ s.appends (.encEnd 0) vs .encEnd ∧ s.capacity = some c ∧ vs ≠ [] ∧
      c + 1 = s.cursor + vs.length :=
  ⟨encTight 1 0x10 2, [0x51, 0x3D, 0x3D], _, rfl, ⟨rfl, .inr (.inl ⟨rfl, rfl, rfl, rfl⟩)⟩, rfl, by decide, rfl⟩

/-- A Buffer whose capacity the host has set below its content: nothing of ENC.BYTE fits. -/
theorem witness_RefusedAppend_beyondCapacity :
    ∃ s b vs c, (s : State).hold = none ∧ s.appends (.encByte b) vs (.encByte b) ∧ s.capacity = some c ∧ vs ≠ [] ∧
      c < s.cursor :=
  ⟨{ encAt 0 0 1 with mem := [(0, 0x54)], capacity := some 0 }, 0x4D, [0x54], 0, rfl,
    ⟨rfl, .inl ⟨0x4D, rfl, rfl, rfl, rfl⟩⟩, rfl, by decide, by decide⟩

theorem witness_RefusedAppend_symbol :
    ∃ s b v vs c, (s : State).hold = none ∧ s.appends (.decByte b) vs (.decSymbol v) ∧ s.capacity = some c ∧ vs ≠ [] ∧
      c < s.cursor + vs.length :=
  ⟨{ decAt 1 0x4C 0 [] with capacity := some 0 }, 0x57, 22, [0x4D], 0, rfl,
    ⟨rfl, .inr (.inr ⟨0x57, 22, rfl, rfl, rfl, rfl, rfl, rfl⟩)⟩, rfl, by decide, by decide⟩

/-- Of the two bytes ENC.END has left, one fits; a command waits at the port. -/
theorem witness_RefusedAppend_goesOn :
    ∃ s h c w rest, (s : State).hold = some h ∧ s.capacity = some c ∧ h.left ≠ [] ∧
      c + 1 = s.cursor + h.left.length ∧ s.cursor < c ∧ s.script = .command w :: rest :=
  ⟨{ heldFull with
      mem := [(0, 0x54), (1, 0x51)], hold := some ⟨[0x51, 0x3D, 0x3D], [0x3D, 0x3D], .encEnd⟩ },
    ⟨[0x51, 0x3D, 0x3D], [0x3D, 0x3D], .encEnd⟩, 3, 0x3000, [], rfl, rfl, by decide, rfl, by decide, rfl⟩

/-- The Buffer that stopped ENC.BYTE, made one byte larger, has exactly the room that is left to append; before that,
`script` held nothing, a command word, or a wait. -/
theorem witness_HeldCommandCompletes :
    ∀ script ∈ [[], [.command 0x3000], [HostEvent.wait]],
      let s : State := { encTight 2 0x04 1 with script := script }
      ∃ t h, s.hold = none ∧ exec (.encByte 0x6E) s = .next t ∧ t.hold = some h ∧ t.script = script ∧
        State.roomFor { t with capacity := some (t.cursor + 1) } h.left.length := by
  intro script hs
  simp only [List.mem_cons, List.not_mem_nil, or_false] at hs
  rcases hs with rfl | rfl | rfl <;>
    exact ⟨_, ⟨[0x46, 0x75], [0x75], .encByte 0x6E⟩, rfl, rfl, rfl, rfl, roomFor_exactly rfl⟩

theorem witness_BufferChanges :
    ∃ s c rest, (s : State).script = .setCapacity c :: rest ∧ s.hold ≠ none ∧ s.capacity ≠ c :=
  ⟨{ heldFull with script := [.setCapacity (some 4)] }, some 4, [], rfl, by decide, by decide⟩

theorem witness_BlockWaits_wait :
    ∃ s rest, (s : State).hold = none ∧ s.script = .wait :: rest :=
  ⟨{ drained with script := [.wait] }, [], rfl, rfl⟩

theorem witness_RefusedAppend_waitEvent :
    ∃ s h rest, (s : State).hold = some h ∧ h.left ≠ [] ∧ s.accepts = false ∧ s.script = .wait :: rest :=
  ⟨{ heldFull with script := [.wait] }, ⟨[0x51, 0x3D, 0x3D], [0x3D], .encEnd⟩, [], rfl, by decide, rfl, rfl⟩

theorem witness_HostOwns_between :
    ∃ s bs rest, (s : State).script = .putBuffer bs :: rest ∧ s.mode = .idle ∧ s.hold = none :=
  ⟨{ withBuf [1] with script := [.putBuffer []] }, [], [], by decide⟩

theorem witness_HostOwns_inside :
    ∃ s bs rest, (s : State).script = .putBuffer bs :: rest ∧ s.mode ≠ .idle :=
  ⟨{ drained with script := [.putBuffer [0xAA]] }, [0xAA], [], by decide⟩

theorem witness_Wire_fits : (⟨.ok, 0, 0xFFFF⟩ : Response).data < 2 ^ 16 := by decide
theorem witness_Wire_tooWide : 2 ^ 16 ≤ (⟨.ok, 0, 0x10000⟩ : Response).data := by decide

theorem witness_Wire_stepFits :
    ∃ t, (16 : Nat) ≤ 16 ∧ step (at' 0x3000 drained) = .next t ∧ ∀ r ∈ delivered (at' 0x3000 drained) t, r.data < 2 ^ 16 :=
  ⟨_, by decide, rfl, by decide⟩

/-- A call whose count has reached 2^16: ENC.END's DATA does not fit 16 bits. -/
theorem witness_Wire_stepTooWide :
    ∃ t, step (at' 0x0300 (encAt 0 0 0x10000)) = .next t ∧
      ∃ r ∈ delivered (at' 0x0300 (encAt 0 0 0x10000)) t, 2 ^ 16 ≤ r.data :=
  ⟨_, rfl, ⟨.ok, 0, 0x10000⟩, by decide, by decide⟩

theorem witness_Wire_narrow : 15 < 16 := by decide

/-! ## The invariant: three states other than reset that meet it -/

/-- An encode call in phase 1 with a command at the port. -/
theorem witness_inv_enc : Inv (at' 0x0261 { encAt 1 0x10 1 with mem := [(0, 0x54)] }) := by
  constructor <;> first | decide | (intro h hh; cases hh)

/-- A decode call in phase 2 that began after one byte. -/
def decodeOpen : State :=
  { withBuf [0xAA, 0x4D] with mode := .dec, mark := 1, decPhase := 2, decValid := 2, outCount := 1 }

theorem witness_inv_decodeOpen : Inv decodeOpen := by
  constructor <;> first | decide | (intro h hh; cases hh)

theorem witness_inv_drained : Inv drained := by
  constructor <;> first | decide | (intro h hh; cases hh)

/-- What waits at the port does not enter the invariant. -/
theorem inv_at {s : State} (h : Inv s) (w : Word) : Inv (at' w s) :=
  ⟨h.mem_wf, h.stash_lt, h.stash_phase0, h.stash_phase1, h.stash_phase2, h.decPhase_eq, h.dec_cursor,
    h.failed_cursor, h.cause_noFault, h.cause_reachable, h.hold_open, h.hold_bytes⟩

theorem witness_inv_dec (w : Word) : Inv (at' w decodeOpen) := inv_at witness_inv_decodeOpen w

theorem witness_inv_failed (w : Word) : Inv (at' w drained) := inv_at witness_inv_drained w

/-- A held command on a full Buffer. -/
theorem witness_inv_held : Inv heldFull := by
  constructor <;> first
    | decide
    | (intro h hh; cases hh; exact ⟨rfl, rfl⟩)
    | (intro h hh; cases hh; exact ⟨by decide, [0x54], [0x51, 0x3D], rfl, rfl⟩)

theorem witness_EveryStep_keeps : ∃ s t, Inv s ∧ step s = .next t ∧ t.mode = .decFailed :=
  ⟨_, _, witness_inv_dec 0x120A, rfl, rfl⟩

theorem witness_OnlyTheHost_refusal :
    ∃ s bs rest, Inv s ∧ s.script = .putBuffer bs :: rest ∧ s.mode ≠ .idle :=
  ⟨{ drained with script := [.putBuffer []] }, [], [],
    by constructor <;> first | decide | (intro h hh; cases hh), rfl, by decide⟩

theorem witness_OnlyTheseStates_encoder :
    exec (.encByte 0) (encAt 1 0x40 1) = .refused .symbolPrecondition ∧
    exec (.encEnd 0) (encAt 2 0xFF 2) = .refused .symbolPrecondition := ⟨rfl, rfl⟩

theorem witness_OnlyTheseStates_decoder :
    exec (.decByte 0x0A) { decAt 0 0 0 [] with mark := 1 } = .refused .invalidMark ∧
    exec (.decEnd 0) { decAt 1 0x4C 0 [] with mark := 1 } = .refused .invalidMark := ⟨rfl, rfl⟩

theorem witness_Responses_decfail :
    ∃ s t r, Inv s ∧ step s = .next t ∧ r ∈ t.responses ∧ r.res = .decfail :=
  ⟨_, _, ⟨.decfail, 1, 0⟩, witness_inv_dec 0x120A, rfl, by decide, rfl⟩

theorem witness_Responses_fault :
    ∃ s t r, Inv s ∧ step s = .next t ∧ r ∈ t.responses ∧ r.res = .fault :=
  ⟨_, _, ⟨.fault, 2, 0⟩, witness_inv_dec 0x0100, rfl, by decide, rfl⟩

theorem witness_OutCount :
    ∃ s t, Inv s ∧ s.mode ≠ .idle ∧ (∀ rest, s.script ≠ .reset :: rest) ∧ step s = .next t ∧ t.outCount = 2 :=
  ⟨_, _, witness_inv_dec 0x1246, by decide, (by intro rest h; cases h), rfl, rfl⟩

theorem witness_BytesBelowMark_dec :
    ∃ s t, Inv s ∧ s.mode = .dec ∧ (∀ rest, s.script ≠ .reset :: rest) ∧ step s = .next t ∧ s.mark = 1 :=
  ⟨_, _, witness_inv_dec 0x120A, rfl, (by intro rest h; cases h), rfl, rfl⟩

theorem witness_BytesBelowMark_failed :
    ∃ s t, Inv s ∧ s.mode = .decFailed ∧ (∀ rest, s.script ≠ .reset :: rest) ∧ step s = .next t ∧ s.mark = 1 :=
  ⟨_, _, witness_inv_failed 0x1300, rfl, (by intro rest h; cases h), rfl, rfl⟩

/-! ## Whole calls -/

theorem witness_ready : Ready State.reset := ⟨rfl, rfl, rfl, rfl⟩
theorem witness_ready_with_content : Ready (withBuf [0xAA]) := ⟨rfl, rfl, rfl, rfl⟩

/-- V-DEC rows: texts of success and of each failure. -/
theorem witness_callFailure :
    callFailure [] = none ∧ callFailure [0x54, 0x51, 0x3D, 0x3D] = none ∧
    callFailure [0x54, 0x51, 0x3D] = some .incompleteGroup ∧
    callFailure [0x54, 0x51, 0x3D, 0x41, 0x0A] = some .misplacedPadding ∧
    callFailure [0x54, 0x51, 0x3D, 0x0A] = some .invalidCharacter := by decide

/-- The offence of R93, as the statement spells it. -/
def offends (text : List Byte) (i : Nat) : Prop :=
  ∃ b, text[i]? = some b ∧
    (cls b = .invalid ∨ ((∃ v, cls b = .valid v) ∧ ∃ j, j < i ∧ text[j]? = some 0x3D))

/-- The same, computed, for the short texts of the witnesses. -/
def offendsB (text : List Byte) (i : Nat) : Bool :=
  match text[i]? with
  | none => false
  | some b =>
    match cls b with
    | .invalid => true
    | .padding => false
    | .valid _ => (List.range i).any fun j => text[j]? == some 0x3D

theorem offends_iff (text : List Byte) (i : Nat) : offends text i ↔ offendsB text i = true := by
  unfold offends offendsB
  cases text[i]? with
  | none => simp
  | some b => cases h : cls b <;> simp [h]

/-- R93: in `TQ=A` the symbol after the padding offends, and nothing before it does. -/
theorem witness_FirstOffence_symbol :
    offends [0x54, 0x51, 0x3D, 0x41] 3 ∧ ∀ j, j < 3 → ¬ offends [0x54, 0x51, 0x3D, 0x41] j := by
  simp only [offends_iff]; decide

/-- R93: the very first byte can offend. -/
theorem witness_FirstOffence_invalid : offends [0x0A] 0 ∧ ∀ j, j < 0 → ¬ offends [0x0A] j := by
  simp only [offends_iff]; decide

/-- A position past the text does not offend. -/
theorem offends_lt {text : List Byte} {i : Nat} (h : offends text i) : i < text.length := by
  obtain ⟨b, hb, -⟩ := h
  exact (List.getElem?_eq_some_iff.mp hb).1

/-- R93: `TQ=` holds no offence and its total is no multiple of 4. -/
theorem witness_FirstOffence_incomplete :
    (∀ i, ¬ offends [0x54, 0x51, 0x3D] i) ∧ ([0x54, 0x51, 0x3D] : List Byte).length % 4 ≠ 0 := by
  refine ⟨fun i h => ?_, by decide⟩
  have : ∀ j, j < 3 → ¬ offends [0x54, 0x51, 0x3D] j := by simp only [offends_iff]; decide
  exact this i (offends_lt h) h

/-- R93, R97: `====` holds no offence and its total is a multiple of 4. -/
theorem witness_FirstOffence_none :
    (∀ i, ¬ offends [0x3D, 0x3D, 0x3D, 0x3D] i) ∧ ([0x3D, 0x3D, 0x3D, 0x3D] : List Byte).length % 4 = 0 := by
  refine ⟨fun i h => ?_, by decide⟩
  have : ∀ j, j < 4 → ¬ offends [0x3D, 0x3D, 0x3D, 0x3D] j := by simp only [offends_iff]; decide
  exact this i (offends_lt h) h

/-- R94's form, with no symbol at all and with a full group. -/
theorem witness_DecodeCallSucceeds :
    ([0x3D, 0x3D, 0x3D, 0x3D] : List Byte).length % 4 = 0 ∧
    (∀ b ∈ ([] : List Byte), b ∈ alphabet) ∧ (∀ b ∈ ([0x3D, 0x3D, 0x3D, 0x3D] : List Byte), b = 0x3D) := by decide

/-- A Buffer with room for exactly the one byte of the run, at each of its two ends. -/
theorem witness_BufferWithRoom :
    ∃ t, (encTight 0 0 1).hold = none ∧
      runCommands [.encByte 0x4D] { encTight 0 0 1 with capacity := none } = .next t ∧
      ∀ (k : Nat) (u : State) (c : Nat),
        runCommands (([.encByte 0x4D] : List Instr).take k) { encTight 0 0 1 with capacity := none } = .next u →
        (encTight 0 0 1).capacity = some c → u.cursor ≤ c := by
  refine ⟨_, rfl, rfl, ?_⟩
  intro k u c hu hc
  cases hc
  cases k with
  | zero => cases hu; decide
  | succ k =>
    have e : ([.encByte 0x4D] : List Instr).take (k + 1) = [.encByte 0x4D] := by simp
    rw [e] at hu
    cases hu
    decide

/-- R96, R97: a whole group before the last one, and padding of one, two, three, or five bytes. -/
theorem witness_DroppedBits_texts :
    (∀ b ∈ ([0x54, 0x57, 0x46, 0x75] : List Byte), b ∈ alphabet) ∧
    ([0x54, 0x57, 0x46, 0x75] : List Byte).length % 4 = 0 ∧ 2 % 4 = 2 ∧ 1 % 4 = 1 ∧ 5 % 4 = 1 ∧ 3 % 4 = 3 ∧
    (([0x54, 0x57, 0x46, 0x75] : List Byte).length + 0) % 4 = 0 ∧
    (([0x54, 0x57, 0x46, 0x75] : List Byte).length + 4) % 4 = 0 := by decide

/-- R96: symbols that differ only in the dropped bits, `Q` and `R`, and `E` and `F` (V-DEC `TR==`). -/
theorem witness_DroppedBits :
    (16#6).extractLsb' 4 2 = (17#6).extractLsb' 4 2 ∧ (16 : Sym6) ≠ 17 ∧
    (4#6).extractLsb' 2 4 = (5#6).extractLsb' 2 4 ∧ (4 : Sym6) ≠ 5 := by decide

end Sys2Proof.Tests
end

section
/-!
PROOFS. The state family (10_state.md): reset, the invariant of R29 under every step, and what a step inside a call
does to the Buffer. Each update of the state has one lemma that says it keeps `Inv`; each step inside a call is a
`CallEffect`, from which what OUT_COUNT, MARK and the Buffer do follows.
-/
namespace Sys2Proof.Machine

/-! ## The reset state and a reset (R31, R120, R121) -/

/-- Settles O2: each conjunct is a field of `State.reset`, or the code of one. -/
theorem resetStateHasTheStatedValues : Obligations.ResetStateHasTheStatedValues :=
  ⟨rfl, rfl, rfl, rfl, rfl, rfl, rfl, rfl, rfl, rfl, rfl, rfl, rfl⟩

/-- Settles O38: no call is open, no command is held, and the Buffer is empty. -/
theorem resetStateMeetsTheInvariant : Obligations.ResetStateMeetsTheInvariant where
  mem_wf := Memory.wf_nil
  stash_lt := by decide
  stash_phase0 _ := rfl
  stash_phase1 _ := rfl
  stash_phase2 _ := rfl
  decPhase_eq := rfl
  dec_cursor := nofun
  failed_cursor := nofun
  cause_noFault := ⟨fun _ => rfl, fun _ => rfl⟩
  cause_reachable := nofun
  hold_open := nofun
  hold_bytes := nofun

/-- A reset at the port acts at once, whatever the block is doing (log entry 8). -/
theorem step_reset {s : State} {rest : List HostEvent} (h : s.script = .reset :: rest) :
    step s = .next (State.resetBlock { s with script := rest }) := by
  simp only [step, advance, h]

/-- Settles O1: the registers are those of `State.resetBlock`, and the Buffer is what `State.cutHeld` leaves. -/
theorem resetSetsEveryRegisterAndKeepsTheBuffer : Obligations.ResetSetsEveryRegisterAndKeepsTheBuffer := by
  intro s rest hs
  refine ⟨_, step_reset hs, rfl, fun hn => ?_, fun h base done hh hb hd => ?_⟩
  · have hcut := State.cutHeld_of_none (s := { s with script := rest }) hn
    simp [hcut]
  · exact State.cutHeld_of_some (s := { s with script := rest }) hh hb hd

/-! ## What taking a command word can do -/

/-- The block takes a word: the recorded fault answers, a fault is raised, or a command's rule runs (R51, R59). -/
theorem acceptWord_next {w : Word} {s t : State} (h : acceptWord w s = .next t) :
    t = s.answerFaulted ∨
    (∃ c, c ≠ .noFault ∧ c ≠ .internalInvariant ∧ t = s.raiseFault c) ∨
    (∃ i, verdict i s = .executes ∧ ruleOf i s = .next t) := by
  rcases acceptWord_cases w s with ⟨_, e⟩ | ⟨i, _, e⟩ <;> rw [e] at h
  · cases h
    unfold illegalOpcode
    split
    · exact .inl rfl
    · exact .inr (.inl ⟨.illegalOpcode, nofun, nofun, rfl⟩)
  · rcases exec_cases h with ⟨_, ht⟩ | ⟨c, _, hc, hi, ht⟩ | hx
    · exact .inl ht
    · exact .inr (.inl ⟨c, hc, hi, ht⟩)
    · exact .inr (.inr ⟨i, hx⟩)

/-- A command other than STATUS executes only in a MODE it is legal in, and never while faulted (R50, R109). -/
theorem legal_of_executes {i : Instr} {s : State} (h : verdict i s = .executes) (hi : i ≠ .status 0) :
    s.fault = false ∧ legalIn i s.mode = true := by
  rcases executes_legal h with ⟨_, e⟩ | ⟨hf, hl, _⟩
  · exact absurd e hi
  · exact ⟨hf, hl⟩

/-- A decode call that has not failed is in MODE DEC. -/
theorem mode_dec_of_legal {s : State} (hl : (s.mode == .dec || s.mode == .decFailed) = true)
    (hm : s.mode ≠ .decFailed) : s.mode = .dec := by
  simpa [hm] using hl

/-! ## A command that appends keeps the invariant (R29, R47) -/

/-- The MODE of the call a held command belongs to (R75, R79, R89). -/
def HeldCmd.callMode : HeldCmd → Mode
  | .encByte _ | .encEnd => .enc
  | .decSymbol _ => .dec

/-- The block may run a command that appends: not faulted, and the command's call is open. -/
def HeldCmd.mayRun (c : HeldCmd) (s : State) : Prop := s.fault = false ∧ s.mode = c.callMode

theorem HeldCmd.mode_ne_decFailed {c : HeldCmd} {s : State} (h : c.mayRun s) : s.mode ≠ .decFailed := by
  rw [h.2]; cases c <;> nofun

/-- A held command's own call is open. -/
theorem Inv.mayRun_of_hold {s : State} (h : Inv s) {hd : Hold} (hh : s.hold = some hd) : hd.cmd.mayRun s := by
  obtain ⟨hf, hm⟩ := h.hold_open hd hh
  refine ⟨hf, ?_⟩
  cases hc : hd.cmd <;> rw [hc] at hm <;> exact hm

/-- A command may be held where its call is open, something is left to append, and what it has appended is the end
of the Buffer (R47). -/
theorem Inv.with_hold {s : State} (h : Inv s) {hd : Hold} (hc : hd.cmd.mayRun s) (hl : hd.left ≠ [])
    {base done : List Byte} (hb : s.buf = base ++ done) (hd' : hd.bytes = done ++ hd.left) :
    Inv { s with hold := some hd } :=
  { h with
    hold_open := by
      rintro _ ⟨⟩
      obtain ⟨hf, hm⟩ := hc
      refine ⟨hf, ?_⟩
      cases e : hd.cmd <;> rw [e] at hm <;> exact hm
    hold_bytes := by
      rintro _ ⟨⟩
      exact ⟨hl, base, done, hb, hd'⟩ }

/-- The invariant asks nothing more of a state with no command held. -/
theorem Inv.without_hold {s : State} (h : Inv s) : Inv { s with hold := none } :=
  { h with hold_open := nofun, hold_bytes := nofun }

/-- Appends keep the invariant outside a failed call (R33): OUT_COUNT moves with the cursor. -/
theorem Inv.after_appended {s : State} (h : Inv s) (hn : s.hold = none) (hm : s.mode ≠ .decFailed) (vs : List Byte) :
    Inv (s.appended vs) := by
  rw [State.appended_frame]
  exact { h with
    mem_wf := Memory.wf_foldl_append h.mem_wf vs
    dec_cursor := fun hd => by
      have := h.dec_cursor hd
      simp only [State.cursor, Memory.length_foldl_append] at this ⊢
      omega
    failed_cursor := fun hf => absurd hf hm
    hold_open := by simp [hn]
    hold_bytes := by simp [hn] }

/-- A byte masked by a symbol value is a symbol value. -/
theorem and_lt_of_mask_lt {x m : Byte} (hm : m.toNat < 64) : (x &&& m).toNat < 64 := by
  rw [BitVec.toNat_and]
  exact Nat.lt_of_le_of_lt Nat.and_le_right hm

/-- The stash of phase 0 is the byte's low two bits at 5:4 (R76, R29(b)). -/
theorem stash_after_phase0 (b : Byte) :
    ((b &&& 0x03) <<< 4).toNat < 64 ∧ ((b &&& 0x03) <<< 4) &&& 0x0F = 0 := by
  rw [BitVec.shiftLeft_and_distrib]
  refine ⟨and_lt_of_mask_lt (by decide), ?_⟩
  rw [BitVec.and_assoc]
  exact BitVec.and_zero

/-- The stash of phase 1 is the byte's low four bits at 5:2 (R77, R29(c)). -/
theorem stash_after_phase1 (b : Byte) :
    ((b &&& 0x0F) <<< 2).toNat < 64 ∧ ((b &&& 0x0F) <<< 2) &&& 0x03 = 0 := by
  rw [BitVec.shiftLeft_and_distrib]
  refine ⟨and_lt_of_mask_lt (by decide), ?_⟩
  rw [BitVec.and_assoc]
  exact BitVec.and_zero

/-- An encoder that has its group complete keeps nothing: phase 0 and an empty stash (R78, R79). -/
theorem Inv.with_encoder_clear {s : State} (h : Inv s) : Inv { s with encPhase := 0, encStash := 0 } :=
  { h with
    stash_lt := by simp
    stash_phase0 := fun _ => rfl
    stash_phase1 := nofun
    stash_phase2 := nofun }

/-- ENC.BYTE's register writes keep the invariant (R76, R77, R78). -/
theorem Inv.after_encByteDone {s : State} (h : Inv s) (b : Byte) : Inv (encByteDone b s) := by
  unfold encByteDone
  split
  · obtain ⟨hlt, hlow⟩ := stash_after_phase0 b
    exact { h with
      stash_lt := hlt
      stash_phase0 := nofun
      stash_phase1 := fun _ => hlow
      stash_phase2 := nofun }
  · obtain ⟨hlt, hlow⟩ := stash_after_phase1 b
    exact { h with
      stash_lt := hlt
      stash_phase0 := nofun
      stash_phase1 := nofun
      stash_phase2 := fun _ => hlow }
  · exact { h.with_encoder_clear with }

/-- Closing a call keeps the invariant where no command is held. -/
theorem Inv.with_idle {s : State} (h : Inv s) (hn : s.hold = none) : Inv { s with mode := .idle } :=
  { h with
    dec_cursor := nofun
    failed_cursor := nofun
    hold_open := by simp [hn] }

/-- DEC_PHASE counts the Valid symbols mod 4 (R89, R29(e)). -/
theorem Inv.after_decSymbolDone {s : State} (h : Inv s) (v : Sym6) : Inv (decSymbolDone v s) :=
  { h with
    decPhase_eq := by
      have := h.decPhase_eq
      simp only [decSymbolDone, State.respond_decPhase, State.respond_decValid, Fin.val_add]
      omega }

/-- A command that has made all its appends completes in a state of the invariant. -/
theorem Inv.after_heldDone {s : State} (h : Inv s) (hn : s.hold = none) (c : HeldCmd) : Inv (heldDone c s) := by
  cases c with
  | encByte b => exact h.after_encByteDone b
  | encEnd => exact { h.with_encoder_clear.with_idle hn with }
  | decSymbol v => exact h.after_decSymbolDone v

/-- A command that appends, from its first append or from the middle, completes or holds in a state of the
invariant (R47). -/
theorem Inv.after_appendFrom {s : State} (h : Inv s) (hn : s.hold = none) {hd : Hold} (hc : hd.cmd.mayRun s)
    {base done : List Byte} (hb : s.buf = base ++ done) (hd' : hd.bytes = done ++ hd.left) :
    Inv (appendFrom hd (heldDone hd.cmd) s) := by
  have happ := h.after_appended hn (HeldCmd.mode_ne_decFailed hc)
  rcases appendFrom_cases hd (heldDone hd.cmd) s with e | ⟨pre, v, left, hl, _, e⟩ <;> rw [e]
  · exact (happ hd.left).after_heldDone (by rw [State.appended_frame]; exact hn) hd.cmd
  · refine (happ pre).with_hold (base := base) (done := done ++ pre) ?_ (List.cons_ne_nil v left) ?_ ?_
    · rw [State.appended_frame]; exact hc
    · rw [State.appended_frame, State.buf, Memory.bytes_foldl_append, ← List.append_assoc, ← hb, State.buf]
    · simp [hd', hl]

/-- A command that appends, from its first append. -/
theorem Inv.after_appendThen {s : State} (h : Inv s) (hn : s.hold = none) {c : HeldCmd} (hc : c.mayRun s)
    (vs : List Byte) : Inv (appendThen vs c (heldDone c) s) :=
  h.after_appendFrom (hd := ⟨vs, vs, c⟩) hn hc (List.append_nil _).symm rfl

/-- A held command that goes on (R47). -/
theorem Inv.after_resume {s : State} (h : Inv s) {hd : Hold} (hh : s.hold = some hd) : Inv (resume hd s) := by
  obtain ⟨_, base, done, hb, hd'⟩ := h.hold_bytes hd hh
  exact h.without_hold.after_appendFrom rfl (h.mayRun_of_hold hh) hb hd'

/-- The block with nothing done to it from outside (R47, R119). -/
theorem Inv.after_runHeld {s : State} (h : Inv s) : Inv (runHeld s) := by
  rcases runHeld_cases s with ⟨_, e⟩ | ⟨hd, hh, e⟩ <;> rw [e]
  · exact h
  · exact h.after_resume hh

/-! ## Every command keeps the invariant -/

/-- The invariant reads neither the port, the Buffer's capacity, the model's logs nor DEC_PAD. -/
theorem Inv.with_unread {s : State} (h : Inv s) {script : List HostEvent} {responses : List Response}
    {capacity : Option Nat} {hints : List (Option Nat)} {decPad : Nat} :
    Inv { s with script, responses, capacity, hints, decPad } :=
  { h with }

/-- The fault action keeps the invariant where no command is held (R108, R111). -/
theorem Inv.after_raiseFault {s : State} (h : Inv s) (hn : s.hold = none) {c : FaultCause} (hc : c ≠ .noFault)
    (hi : c ≠ .internalInvariant) : Inv (s.raiseFault c) :=
  { h with
    cause_noFault := by simp [hc]
    cause_reachable := hi
    hold_open := by simp [hn] }

/-- ENC.START opens an encode call (R74). -/
theorem Inv.with_enc {s : State} (h : Inv s) (hn : s.hold = none) :
    Inv { s with mode := .enc, encPhase := 0, encStash := 0, outCount := 0 } :=
  { h.with_encoder_clear with
    dec_cursor := nofun
    failed_cursor := nofun
    hold_open := by simp [hn] }

/-- DEC.START opens a decode call with MARK at the cursor and no byte above it (R84). -/
theorem Inv.with_dec {s : State} (h : Inv s) (hn : s.hold = none) :
    Inv { s with
      mark := s.mem.length, decPhase := 0, decValid := 0, decPad := 0, decStash := 0, outCount := 0,
      err := .noError, mode := .dec } :=
  { h with
    decPhase_eq := rfl
    dec_cursor := fun _ => rfl
    failed_cursor := nofun
    hold_open := by simp [hn] }

/-- A failure rolls the Buffer back to MARK (R91). -/
theorem Inv.with_rollback {s : State} (h : Inv s) (hn : s.hold = none) (hm : s.mark ≤ s.mem.length)
    {kind : ErrKind} (hk : kind ≠ .noError) :
    Inv { s with mem := s.mem.truncate s.mark, outCount := 0, err := kind, mode := .decFailed } :=
  { h with
    mem_wf := Memory.wf_truncate h.mem_wf _
    dec_cursor := nofun
    failed_cursor := fun _ => ⟨(Memory.length_truncate _ _).trans (Nat.min_eq_left hm), rfl, hk⟩
    hold_open := by simp [hn]
    hold_bytes := by simp [hn] }

/-- What the host puts into its Buffer between calls keeps the invariant (R44, log entry 12). -/
theorem Inv.with_buffer {s : State} (h : Inv s) (hm : s.mode = .idle) (hn : s.hold = none) (bs : List Byte) :
    Inv { s with mem := Memory.ofBytes bs } :=
  { h with
    mem_wf := Memory.wf_ofBytes bs
    dec_cursor := by simp [hm]
    failed_cursor := by simp [hm]
    hold_open := by simp [hn]
    hold_bytes := by simp [hn] }

/-- Reset leads into the invariant from any Buffer in canonical form (R120). -/
theorem inv_resetBlock {s : State} (h : s.mem.wf) : Inv s.resetBlock :=
  { resetStateMeetsTheInvariant with
    mem_wf := State.cutHeld_wf h
    dec_cursor := nofun
    failed_cursor := nofun
    hold_bytes := nofun }

/-- Every command that executes keeps the invariant: the rules of R74 to R99, one by one. -/
theorem Inv.after_rule {i : Instr} {s t : State} (h : Inv s) (hn : s.hold = none) (hv : verdict i s = .executes)
    (hr : ruleOf i s = .next t) : Inv t := by
  have ht := ruleOf_next hr
  have hlegal := legal_of_executes hv
  cases i with
  | encStart x => exact ht ▸ (h.with_enc hn).with_unread
  | encByte b =>
    obtain ⟨vs, _, rfl⟩ := ht
    obtain ⟨hf, hl⟩ := hlegal nofun
    exact h.after_appendThen hn (c := .encByte b) ⟨hf, eq_of_beq hl⟩ vs
  | encEnd x =>
    obtain ⟨vs, _, rfl⟩ := ht
    obtain ⟨hf, hl⟩ := hlegal nofun
    exact h.after_appendThen hn (c := .encEnd) ⟨hf, eq_of_beq hl⟩ vs
  | decStart x => exact ht ▸ (h.with_dec hn).with_unread
  | decByte b =>
    obtain ⟨hf, hl⟩ := hlegal nofun
    rcases ht with ⟨_, rfl⟩ | ⟨_, kind, hk, hm, rfl⟩ | ⟨_, _, rfl⟩ | ⟨hm, _, v, _, rfl⟩
    · exact h.with_unread
    · have hk' : kind ≠ .noError := by rcases hk with ⟨_, rfl⟩ | ⟨_, _, rfl⟩ <;> nofun
      exact (h.with_rollback hn hm hk').with_unread
    · exact h.with_unread
    · exact h.after_appendThen hn (c := .decSymbol v) ⟨hf, mode_dec_of_legal hl hm⟩ _
  | decEnd x =>
    rcases ht with ⟨_, rfl⟩ | ⟨_, _, hm, rfl⟩ | ⟨_, _, rfl⟩
    · exact (h.with_idle hn).with_unread
    · exact ((h.with_rollback hn hm (kind := .incompleteGroup) nofun).with_idle hn).with_unread
    · exact (h.with_idle hn).with_unread
  | mapEnc v => exact ht ▸ h.with_unread
  | mapDec b => exact ht ▸ h.with_unread
  | status x => exact ht ▸ h.with_unread

/-- Taking a command word keeps the invariant (R59). -/
theorem Inv.after_acceptWord {w : Word} {s t : State} (h : Inv s) (hn : s.hold = none)
    (ht : acceptWord w s = .next t) : Inv t := by
  rcases acceptWord_next ht with rfl | ⟨c, hc, hi, rfl⟩ | ⟨i, hv, hr⟩
  · exact h.with_unread
  · exact h.after_raiseFault hn hc hi
  · exact h.after_rule hn hv hr

/-- Settles O40: each thing a step can do keeps the invariant. -/
theorem everyStepKeepsTheInvariant : Obligations.EveryStepKeepsTheInvariant := by
  intro s t h hstep
  rcases step_cases hstep with ⟨_, _, rfl⟩ | ⟨hd, hh, rfl, _⟩ | ⟨rest, _, rfl⟩ | ⟨rest, _, rfl⟩ |
    ⟨c, rest, _, rfl⟩ | ⟨bs, rest, _, hm, hn, rfl⟩ | ⟨w, rest, _, hn, ht⟩
  · exact h
  · exact h.after_resume hh
  · exact h.with_unread.after_runHeld
  · exact inv_resetBlock h.mem_wf
  · exact h.with_unread
  · exact (h.with_buffer hm hn bs).with_unread
  · exact (h.with_unread (script := rest)).after_acceptWord hn ht

/-! ## What a step inside a call does to the Buffer (R25, R33, R91) -/

/-- What a step inside a call does to the Buffer, OUT_COUNT and MARK, from `s` to `t`. -/
inductive CallEffect (s t : State) : Prop where
  /-- The bytes `vs`, perhaps none, are appended, OUT_COUNT moves with them, and MARK stays. -/
  | appends (vs : List Byte) (buf : t.buf = s.buf ++ vs) (outCount : t.outCount = s.outCount + vs.length)
      (mark : t.mark = s.mark)
  /-- A decode call fails: the Buffer goes back to MARK, OUT_COUNT to 0, and MARK stays. -/
  | rollsBack (mode : s.mode = .dec) (buf : t.buf = s.buf.take s.mark) (outCount : t.outCount = 0)
      (mark : t.mark = s.mark)

/-- A step that leaves the Buffer, OUT_COUNT and MARK alone appends nothing. -/
theorem CallEffect.of_eq {s t : State} (hm : t.mem = s.mem) (ho : t.outCount = s.outCount)
    (hk : t.mark = s.mark) : CallEffect s t :=
  .appends [] (by simp [State.buf, hm]) ho hk

/-- The effect does not depend on what waits at the port or is held. -/
theorem CallEffect.of_port {s t : State} {script : List HostEvent} {hold : Option Hold}
    (h : CallEffect { s with script, hold } t) : CallEffect s t := by
  cases h with
  | appends vs hb ho hk => exact .appends vs hb ho hk
  | rollsBack hm hb ho hk => exact .rollsBack hm hb ho hk

/-- A command that appends has the effect of what it got into the Buffer, whether it completes or holds (R47). -/
theorem callEffect_appendFrom (hd : Hold) (s : State) :
    CallEffect s (appendFrom hd (heldDone hd.cmd) s) := by
  have hbuf (vs : List Byte) : Memory.bytes (vs.foldl Memory.append s.mem) = s.buf ++ vs :=
    Memory.bytes_foldl_append s.mem vs
  rcases appendFrom_cases hd (heldDone hd.cmd) s with e | ⟨pre, v, left, _, _, e⟩ <;> rw [e]
  · rw [(heldDone_frame hd.cmd _).2, State.appended_frame]
    exact .appends hd.left (hbuf hd.left) rfl rfl
  · rw [State.appended_frame]
    exact .appends pre (hbuf pre) rfl rfl

/-- A held command that goes on appends (R47). -/
theorem callEffect_resume (hd : Hold) (s : State) : CallEffect s (resume hd s) :=
  (callEffect_appendFrom hd { s with hold := none }).of_port

/-- The block with nothing done to it from outside only appends. -/
theorem callEffect_runHeld (s : State) : CallEffect s (runHeld s) := by
  rcases runHeld_cases s with ⟨_, e⟩ | ⟨hd, _, e⟩ <;> rw [e]
  · exact .of_eq rfl rfl rfl
  · exact callEffect_resume hd s

/-- Inside a call a command that executes appends or rolls back: START is not legal there (R50). -/
theorem callEffect_rule {i : Instr} {s t : State} (hopen : s.mode ≠ .idle) (hv : verdict i s = .executes)
    (hr : ruleOf i s = .next t) : CallEffect s t := by
  have ht := ruleOf_next hr
  have hlegal := legal_of_executes hv
  have happ (vs : List Byte) (c : HeldCmd) : CallEffect s (appendThen vs c (heldDone c) s) :=
    callEffect_appendFrom ⟨vs, vs, c⟩ s
  cases i with
  | encStart x => exact absurd (eq_of_beq (hlegal nofun).2) hopen
  | encByte b => obtain ⟨vs, _, rfl⟩ := ht; exact happ vs _
  | encEnd x => obtain ⟨vs, _, rfl⟩ := ht; exact happ vs _
  | decStart x => exact absurd (eq_of_beq (hlegal nofun).2) hopen
  | decByte b =>
    rcases ht with ⟨_, rfl⟩ | ⟨hm, kind, _, _, rfl⟩ | ⟨_, _, rfl⟩ | ⟨_, _, v, _, rfl⟩
    · exact .of_eq rfl rfl rfl
    · exact .rollsBack (mode_dec_of_legal (hlegal nofun).2 hm) (Memory.bytes_truncate _ _) rfl rfl
    · exact .of_eq rfl rfl rfl
    · exact happ _ _
  | decEnd x =>
    rcases ht with ⟨_, rfl⟩ | ⟨hm, _, _, rfl⟩ | ⟨_, _, rfl⟩
    · exact .of_eq rfl rfl rfl
    · exact .rollsBack (mode_dec_of_legal (hlegal nofun).2 hm) (Memory.bytes_truncate _ _) rfl rfl
    · exact .of_eq rfl rfl rfl
  | mapEnc v => exact ht ▸ .of_eq rfl rfl rfl
  | mapDec b => exact ht ▸ .of_eq rfl rfl rfl
  | status x => exact ht ▸ .of_eq rfl rfl rfl

/-- Inside a call, taking a command word appends or rolls back (R59). -/
theorem callEffect_acceptWord {w : Word} {s t : State} (hopen : s.mode ≠ .idle)
    (ht : acceptWord w s = .next t) : CallEffect s t := by
  rcases acceptWord_next ht with rfl | ⟨c, _, _, rfl⟩ | ⟨i, hv, hr⟩
  · exact .of_eq rfl rfl rfl
  · exact .of_eq rfl rfl rfl
  · exact callEffect_rule hopen hv hr

/-- Inside a call every step but a reset appends, perhaps nothing, or rolls a decode call back. -/
theorem callEffect_step {s t : State} (hopen : s.mode ≠ .idle) (hreset : ∀ rest, s.script ≠ .reset :: rest)
    (hstep : step s = .next t) : CallEffect s t := by
  rcases step_cases hstep with ⟨_, _, rfl⟩ | ⟨hd, _, rfl, _⟩ | ⟨rest, _, rfl⟩ | ⟨rest, hs, _⟩ |
    ⟨c, rest, _, rfl⟩ | ⟨bs, rest, _, hm, _⟩ | ⟨w, rest, _, _, ht⟩
  · exact .of_eq rfl rfl rfl
  · exact callEffect_resume hd s
  · exact (callEffect_runHeld { s with script := rest }).of_port
  · exact absurd hs (hreset rest)
  · exact .of_eq rfl rfl rfl
  · exact absurd hm hopen
  · exact (callEffect_acceptWord (s := { s with script := rest }) hopen ht).of_port

/-- In a decode call MARK is a mark of the Buffer (R29(d)). -/
theorem Inv.mark_le_length_buf {s : State} (h : Inv s) (hm : s.mode = .dec ∨ s.mode = .decFailed) :
    s.mark ≤ s.buf.length := by
  have hlen : s.buf.length = s.cursor := Memory.length_bytes s.mem
  rcases hm with hm | hm
  · have := h.dec_cursor hm; omega
  · have := (h.failed_cursor hm).1; omega

/-- Settles O44: an append moves both by one a byte, and a rollback takes off both the bytes above MARK. -/
theorem outCountFollowsTheCursor : Obligations.OutCountFollowsTheCursor := by
  intro s t h hopen hreset hstep
  have hlen (u : State) : u.cursor = u.buf.length := (Memory.length_bytes u.mem).symm
  cases callEffect_step hopen hreset hstep with
  | appends vs hb ho hk =>
    rw [hlen, hlen, hb, ho, List.length_append]
    omega
  | rollsBack hm hb ho hk =>
    have hdec := h.dec_cursor hm
    rw [hlen] at hdec
    rw [hlen, hlen, hb, ho, List.length_take]
    omega

/-- Settles O45: appends go in above MARK, and a rollback keeps exactly the bytes below it. -/
theorem bytesBelowMarkSurviveADecodeCall : Obligations.BytesBelowMarkSurviveADecodeCall := by
  intro s t h hm hreset hstep
  have hopen : s.mode ≠ .idle := by rcases hm with hm | hm <;> rw [hm] <;> nofun
  cases callEffect_step hopen hreset hstep with
  | appends vs hb ho hk =>
    exact ⟨hk, by rw [hb, List.take_append_of_le_length (h.mark_le_length_buf hm)]⟩
  | rollsBack _ hb ho hk => exact ⟨hk, by rw [hb, List.take_take, Nat.min_self]⟩

end Sys2Proof.Machine
end

section
/-!
PROOFS. The Buffer family (20_memory.md): what the host and the Buffer may do at the port, which commands are refused,
and the hold of R47. A command that answers a next state either appends (`State.appends`) or has nothing to do with the
port, the hold and the capacity; the statements about holding and about runs rest on that split.
-/
namespace Sys2Proof.Machine

/-! ## One step at the port (R44, R47, R56) -/

/-- The Buffer may change what it accepts at any point (log entries 7 and 8). -/
theorem step_setCapacity {s : State} {c : Option Nat} {rest : List HostEvent} (h : s.script = .setCapacity c :: rest) :
    step s = .next { s with script := rest, capacity := c } := by
  simp only [step, advance, h]

theorem step_putBuffer {s : State} {bs : List Byte} {rest : List HostEvent} (h : s.script = .putBuffer bs :: rest) :
    step s = putBuffer bs { s with script := rest } := by
  simp only [step, advance, h]

theorem step_wait {s : State} {rest : List HostEvent} (h : s.script = .wait :: rest) :
    step s = .next (runHeld { s with script := rest }) := by
  simp only [step, advance, h]

/-- A held command goes on; a command word at the port waits for its end (R47, R56). -/
theorem step_of_held {s : State} {h : Hold} (hh : s.hold = some h)
    (hs : s.script = [] ∨ ∃ w rest, s.script = .command w :: rest) : step s = .next (resume h s) := by
  rcases hs with hs | ⟨w, rest, hs⟩
  · simp only [step, advance, hs, runHeld, hh]
  · simp only [step, advance, hs, hh]

/-- A held command goes on while the host leaves the block alone (log entry 8). -/
theorem step_wait_of_held {s : State} {h : Hold} {rest : List HostEvent} (hh : s.hold = some h)
    (hs : s.script = .wait :: rest) : step s = .next (resume h { s with script := rest }) := by
  simp only [step_wait hs, runHeld, hh]

/-- With no command held the block takes the command word at the port (R56). -/
theorem step_command {s : State} {w : Word} {rest : List HostEvent} (hn : s.hold = none)
    (hs : s.script = .command w :: rest) : step s = acceptWord w { s with script := rest } := by
  simp only [step, advance, hs, hn]

/-- Settles O56: the event acts at once, also while a command is held. -/
theorem bufferChangesWhatItAccepts : Obligations.BufferChangesWhatItAccepts :=
  fun _ _ _ h => step_setCapacity h

/-- Settles O36: `putBuffer` asks for MODE IDLE and no hold, and leaves the canonical form of the given bytes. -/
theorem hostOwnsTheBufferBetweenCalls : Obligations.HostOwnsTheBufferBetweenCalls := by
  intro s bs rest hs
  rw [step_putBuffer hs]
  refine ⟨fun hm hn => ?_, fun hm => ?_⟩
  · have hput : putBuffer bs { s with script := rest } =
        .next { s with script := rest, mem := Memory.ofBytes bs } := if_pos ⟨hm, hn⟩
    exact ⟨_, hput, Memory.bytes_ofBytes bs, Memory.wf_ofBytes bs, rfl⟩
  · exact if_neg fun h => hm h.1

/-! ## Which commands are refused (R35, R65, R72, R125, log entry 11) -/

/-- A command is refused exactly where it passes its checks and its rule is refused; STATUS, the one command that
passes them while faulted, never is (R59). -/
theorem exec_refused_iff {i : Instr} {s : State} {r : Refusal} :
    exec i s = .refused r ↔
      s.fault = false ∧ legalIn i s.mode = true ∧ operandFault i = none ∧ ruleOf i s = .refused r := by
  rw [exec_eq_gate]
  constructor
  · intro h
    rcases gate_cases i (ruleOf i) s with ⟨_, g⟩ | ⟨c, _, _, _, g⟩ | ⟨hv, g⟩ <;> rw [g] at h
    · cases h
    · cases h
    · rcases executes_legal hv with ⟨_, rfl⟩ | ⟨hf, hl, hw⟩
      · cases h
      · exact ⟨hf, hl, (operandFault_eq_none_iff i).2 hw, h⟩
  · rintro ⟨hf, hl, ho, hr⟩
    rw [gate_runs _ hf hl ho, hr]

theorem symsOf_cons_eq_none {x : Byte} (h : 64 ≤ x.toNat) (xs : List Byte) : symsOf (x :: xs) = none := by
  simp [symsOf, symOf_of_le h]

/-- A value of 64 or more stays one when bits are added to it. -/
theorem le_or_of_le {x : Byte} (h : 64 ≤ x.toNat) (y : Byte) : 64 ≤ (x ||| y).toNat := by
  rw [BitVec.toNat_or]
  exact Nat.le_trans h Nat.left_le_or

/-- ENC.BYTE calls `sym` against its precondition exactly where it uses a stash of 64 or more (R72). -/
theorem encSymbols_eq_none_iff {b : Byte} {s : State} :
    encSymbols b s = none ↔ s.encPhase ≠ 0 ∧ 64 ≤ s.encStash.toNat := by
  by_cases h : s.encStash.toNat < 64
  · simp [encSymbols_of_lt b h, Nat.not_le.2 h]
  · have hle : 64 ≤ s.encStash.toNat := Nat.not_lt.1 h
    unfold encSymbols
    generalize s.encPhase = p
    match p with
    | 0 => simp [symsOf_one (shift_lt (b := b) (n := 2) (by omega))]
    | 1 => simp [symsOf_cons_eq_none (le_or_of_le hle _), hle]
    | 2 => simp [symsOf_cons_eq_none (le_or_of_le hle _), hle]

/-- ENC.END likewise (R79). -/
theorem encTail_eq_none_iff {s : State} : encTail s = none ↔ s.encPhase ≠ 0 ∧ 64 ≤ s.encStash.toNat := by
  by_cases h : s.encStash.toNat < 64
  · simp [encTail_of_lt h, Nat.not_le.2 h]
  · have hle : 64 ≤ s.encStash.toNat := Nat.not_lt.1 h
    unfold encTail
    generalize s.encPhase = p
    match p with
    | 0 => simp
    | 1 => simp [symsOf_cons_eq_none hle, hle]
    | 2 => simp [symsOf_cons_eq_none hle, hle]

theorem encByteRule_refused_iff {b : Byte} {s : State} {r : Refusal} :
    encByteRule b s = .refused r ↔ r = .symbolPrecondition ∧ s.encPhase ≠ 0 ∧ 64 ≤ s.encStash.toNat := by
  rw [← encSymbols_eq_none_iff (b := b), encByteRule]
  cases encSymbols b s <;> simp [eq_comm]

theorem encEndRule_refused_iff {s : State} {r : Refusal} :
    encEndRule s = .refused r ↔ r = .symbolPrecondition ∧ s.encPhase ≠ 0 ∧ 64 ≤ s.encStash.toNat := by
  rw [← encTail_eq_none_iff, encEndRule]
  cases encTail s <;> simp [eq_comm]

theorem decByteFails_refused_iff {kind : ErrKind} {s : State} {r : Refusal} :
    decByteFails kind s = .refused r ↔ r = .invalidMark ∧ s.cursor < s.mark := by
  rcases decByteFails_cases kind s with ⟨h, e⟩ | ⟨h, e⟩
  · simp [e, Nat.not_lt.2 h]
  · simp [e, h, eq_comm]

/-- A DEC.BYTE that fails the call is refused exactly where MARK lies beyond the cursor (R35, R86, R88). -/
theorem decByteRule_refused_iff {b : Byte} {s : State} {r : Refusal} :
    decByteRule b s = .refused r ↔ s.mode ≠ .decFailed ∧ r = .invalidMark ∧ s.cursor < s.mark ∧
      (cls b = .invalid ∨ (cls b ≠ .padding ∧ s.decPad ≠ 0)) := by
  unfold decByteRule decByteOpen
  by_cases hm : s.mode = .decFailed
  · simp [hm]
  cases cls b with
  | invalid => simp [hm, decByteFails_refused_iff]
  | padding => simp [hm]
  | valid v =>
    by_cases hp : s.decPad = 0
    · simp [hm, hp]
    · simp [hm, hp, decByteFails_refused_iff]

theorem decEndRule_refused_iff {s : State} {r : Refusal} :
    decEndRule s = .refused r ↔ s.mode ≠ .decFailed ∧ r = .invalidMark ∧ s.cursor < s.mark ∧
      (s.decValid + s.decPad) % 4 ≠ 0 := by
  unfold decEndRule
  by_cases hm : s.mode = .decFailed
  · simp [hm]
  by_cases ht : (s.decValid + s.decPad) % 4 = 0
  · simp [hm, ht]
  rcases State.decfail_cases s .incompleteGroup with ⟨h, e⟩ | ⟨h, e⟩
  · simp [hm, ht, e, Nat.not_lt.2 h]
  · simp [hm, ht, e, h, eq_comm]

/-- Settles O42: the checks leave a legal command in its MODE, and then its rule's own refusal decides. -/
theorem onlyTheseStatesRefuseACommand : Obligations.OnlyTheseStatesRefuseACommand := by
  intro s i r
  rw [exec_refused_iff]
  cases i with
  | encByte b =>
    simp only [ruleOf, encByteRule_refused_iff]
    grind [legalIn, operandFault]
  | encEnd x =>
    simp only [ruleOf, encEndRule_refused_iff]
    grind [legalIn, operandFault]
  | decByte b =>
    simp only [ruleOf, decByteRule_refused_iff]
    grind [legalIn, operandFault]
  | decEnd x =>
    simp only [ruleOf, decEndRule_refused_iff]
    grind [legalIn, operandFault]
  | encStart x => simp [ruleOf, encStartRule]
  | decStart x => simp [ruleOf, decStartRule]
  | mapEnc v => simp [ruleOf, mapEncRule]
  | mapDec b => simp [ruleOf, mapDecRule]
  | status x => simp [ruleOf, statusRule]

/-! ## Commands that append, and the rest (R47, R75, R79, R89) -/

section
variable {s t : State} {i : Instr} {hold : Option Hold} {capacity : Option Nat} {script : List HostEvent}

/-- A rule that runs belongs to a command that appends, or it reads and changes neither hold, capacity nor port. -/
theorem ruleOf_appends_or_unread (hv : verdict i s = .executes) (h : ruleOf i s = .next t) :
    (∃ vs cmd, s.appends i vs cmd) ∨
      ruleOf i { s with hold, capacity, script } = .next { t with hold, capacity, script } := by
  have ht := ruleOf_next h
  cases i with
  | encStart x => cases h; exact .inr rfl
  | encByte b =>
    obtain ⟨vs, hvs, rfl⟩ := ht
    obtain ⟨hf, hl⟩ := legal_of_executes hv nofun
    exact .inl ⟨vs, _, hf, .inl ⟨b, rfl, eq_of_beq hl, rfl, hvs⟩⟩
  | encEnd x =>
    obtain ⟨vs, hvs, rfl⟩ := ht
    rcases executes_legal hv with ⟨_, e⟩ | ⟨hf, hl, hw⟩
    · cases e
    · obtain rfl : x = 0 := eq_of_beq hw
      exact .inl ⟨vs, _, hf, .inr (.inl ⟨rfl, eq_of_beq hl, rfl, hvs⟩)⟩
  | decStart x => cases h; exact .inr rfl
  | decByte b =>
    rcases ht with ⟨hm, rfl⟩ | ⟨hm, kind, hk, hle, rfl⟩ | ⟨hm, hp, rfl⟩ | ⟨hm, hp, v, hb, rfl⟩
    · simp [ruleOf, decByteRule, hm, State.respond]
    · right
      rcases hk with ⟨hb, rfl⟩ | ⟨⟨v, hb⟩, hp, rfl⟩
      · simp [ruleOf, decByteRule, hm, decByteOpen, hb, decByteFails, State.decfail_of_le, hle, State.respond]
      · simp [ruleOf, decByteRule, hm, decByteOpen, hb, hp, decByteFails, State.decfail_of_le, hle, State.respond]
    · simp [ruleOf, decByteRule, hm, decByteOpen, hp, State.respond]
    · obtain ⟨hf, hl⟩ := legal_of_executes hv nofun
      exact .inl ⟨_, _, hf, .inr (.inr ⟨b, v, rfl, mode_dec_of_legal hl hm, hp, hb, rfl, rfl⟩)⟩
  | decEnd x =>
    rcases ht with ⟨hm, rfl⟩ | ⟨hm, hn, hle, rfl⟩ | ⟨hm, hn, rfl⟩
    · simp [ruleOf, decEndRule, hm, State.respond]
    · simp [ruleOf, decEndRule, hm, hn, State.decfail_of_le, hle, State.respond]
    · simp [ruleOf, decEndRule, hm, hn, State.respond]
  | mapEnc v => cases h; exact .inr rfl
  | mapDec b => cases h; exact .inr rfl
  | status x => cases h; exact .inr rfl

/-- A command that answers a next state appends, or it reads and changes neither hold, capacity nor port. -/
theorem exec_appends_or_unread (h : exec i s = .next t) :
    (∃ vs cmd, s.appends i vs cmd) ∨
      exec i { s with hold, capacity, script } = .next { t with hold, capacity, script } := by
  have hport : verdict i { s with hold, capacity, script } = verdict i s := rfl
  rw [exec_eq_gate, gate] at h
  rw [exec_eq_gate, gate, hport]
  cases hv : verdict i s with
  | faulted => rw [hv] at h; cases h; exact .inr rfl
  | raises cause => rw [hv] at h; cases h; exact .inr rfl
  | executes => rw [hv] at h; exact ruleOf_appends_or_unread hv h

/-- What a command's appends are does not depend on hold, capacity and port. -/
theorem State.appends.with_port {vs : List Byte} {cmd : HeldCmd} (h : s.appends i vs cmd) :
    State.appends { s with hold, capacity, script } i vs cmd := h

/-- Completing after the appends reads and changes neither hold, capacity nor port. -/
theorem heldDone_appended_with_port (cmd : HeldCmd) (vs : List Byte) :
    heldDone cmd (State.appended { s with hold, capacity, script } vs) =
      { heldDone cmd (s.appended vs) with hold, capacity, script } := by
  simp only [State.appended_frame]
  cases cmd with
  | encByte b => simp only [heldDone, encByteDone]; split <;> rfl
  | encEnd => rfl
  | decSymbol v => rfl

/-- A completed command leaves hold as it was. -/
theorem hold_heldDone_appended (cmd : HeldCmd) (vs : List Byte) : (heldDone cmd (s.appended vs)).hold = s.hold := by
  rw [(heldDone_frame cmd _).2, State.appended_frame]

/-- A completed command has moved the cursor by its appends. -/
theorem cursor_heldDone_appended (cmd : HeldCmd) (vs : List Byte) :
    (heldDone cmd (s.appended vs)).cursor = s.cursor + vs.length := by
  rw [(heldDone_frame cmd _).2, State.appended_frame]
  exact Memory.length_foldl_append s.mem vs

theorem exec_of_appends_room {vs : List Byte} {cmd : HeldCmd} (h : s.appends i vs cmd) (hr : s.roomFor vs.length) :
    exec i s = .next (heldDone cmd (s.appended vs)) := by
  rw [exec_of_appends h, appendThen_room vs cmd _ hr]

end

/-! ## Holding in the middle of a command (R47) -/

/-- A command that leaves the block holding is one that appends, stopped after a first part of its bytes. -/
theorem exec_holds {s t : State} {i : Instr} {h : Hold} (hn : s.hold = none) (he : exec i s = .next t)
    (hh : t.hold = some h) :
    s.appends i h.bytes h.cmd ∧ h.left ≠ [] ∧
      ∃ pre, h.bytes = pre ++ h.left ∧ (s.appended pre).accepts = false ∧
        t = { s.appended pre with hold := some h } := by
  rcases exec_appends_or_unread (hold := s.hold) (capacity := s.capacity) (script := s.script) he with
    ⟨vs, cmd, happ⟩ | hport
  · have ht := exec_of_appends happ
    rw [he] at ht
    rcases appendThen_cases vs cmd (heldDone cmd) s with e | ⟨pre, v, left, hvs, ha, e⟩ <;> rw [e] at ht <;>
      cases ht
    · rw [hold_heldDone_appended, hn] at hh
      cases hh
    · cases hh
      exact ⟨happ, List.cons_ne_nil v left, pre, hvs, ha, rfl⟩
  · have ht : t = { t with hold := s.hold, capacity := s.capacity, script := s.script } :=
      Host.Outcome.next.inj (he.symm.trans hport)
    have hkeep : t.hold = s.hold := by rw [ht]
    rw [hkeep, hn] at hh
    cases hh

/-- Appends that only fit in part, written as the fields they change. -/
theorem appended_take_frame {s : State} {vs : List Byte} {c : Nat} (hr : c < s.cursor + vs.length) :
    s.appended (vs.take (c - s.cursor)) =
      { s with
        mem := (vs.take (c - s.cursor)).foldl Memory.append s.mem, outCount := s.outCount + (c - s.cursor) } := by
  have hlen : (vs.take (c - s.cursor)).length = c - s.cursor := by rw [List.length_take]; omega
  rw [State.appended_frame, hlen]

/-- A held command whose left bytes do not all fit goes on as far as they do and holds again (R47). -/
theorem resume_full {s : State} {h : Hold} {c : Nat} (hc : s.capacity = some c) (hl : h.left ≠ [])
    (hr : c < s.cursor + h.left.length) :
    resume h s = { s with
      mem := (h.left.take (c - s.cursor)).foldl Memory.append s.mem, outCount := s.outCount + (c - s.cursor),
      hold := some { h with left := h.left.drop (c - s.cursor) } } := by
  have hr' : c < State.cursor { s with hold := none } + h.left.length := hr
  have hfull := appendFrom_full (s := { s with hold := none }) h (heldDone h.cmd) hc hl hr'
  rwa [appended_take_frame hr'] at hfull

/-- Settles O34: a command holds exactly where its appends do not fit, and what it got done is a first part of them. -/
theorem refusedAppendHoldsTheBlock : Obligations.RefusedAppendHoldsTheBlock := by
  refine ⟨?_, ?_, ?_, ?_⟩
  · intro s t i h hn he hh
    obtain ⟨happ, hl, pre, hb, ha, rfl⟩ := exec_holds hn he hh
    refine ⟨ha, hl, happ, pre, hb, ?_, ?_⟩
    · rw [State.appended_frame]
      exact Memory.bytes_foldl_append s.mem pre
    · rw [State.appended_frame]
  · intro s i vs cmd c _ happ hc hvs hr
    rw [exec_of_appends happ, appendThen, appendFrom_full _ _ hc hvs hr, appended_take_frame hr]
  · intro s h c hh hc hl hr hs
    rw [step_of_held hh hs, resume_full hc hl hr]
  · intro s h hh hl ha
    refine ⟨fun hs => ?_, fun rest hs => ?_⟩
    · rw [step_of_held hh hs, resume_of_refused hh hl ha]
    · have hstay := resume_of_refused (s := { s with script := rest }) hh hl ha
      rw [step_wait_of_held hh hs, hstay]

/-- A held command that has room for what is left ends as it would have ended with no stop, whatever the Buffer's
capacity and the port now are. -/
theorem resume_room {s t : State} {h : Hold} {pre : List Byte} {capacity : Option Nat} {script : List HostEvent}
    (hb : h.bytes = pre ++ h.left) (ht : t = { s.appended pre with hold := some h })
    (hr : State.roomFor { t with capacity, script } h.left.length) :
    resume h { t with capacity, script } =
      { heldDone h.cmd (s.appended h.bytes) with hold := none, capacity, script } := by
  have happ : (s.appended pre).appended h.left = s.appended h.bytes := by
    rw [hb]; exact List.foldl_append.symm
  have hr' : State.roomFor { t with hold := none, capacity, script } h.left.length := hr
  rw [resume, appendFrom_room h _ hr', ← happ, ← heldDone_appended_with_port, ht]

/-- Settles O35: stopped or not, the command ends in `heldDone` after all its bytes. -/
theorem heldCommandCompletesAsIfNeverHeld : Obligations.HeldCommandCompletesAsIfNeverHeld := by
  intro s t i h hn he hh
  obtain ⟨happ, _, pre, hb, _, ht⟩ := exec_holds hn he hh
  have hu : exec i { s with capacity := none } = .next
      { heldDone h.cmd (s.appended h.bytes) with hold := none, capacity := none, script := s.script } := by
    rw [exec_of_appends_room happ.with_port (State.roomFor_of_unlimited rfl _), heldDone_appended_with_port, hn]
  have hscript : t.script = s.script := by rw [ht, State.appended_frame]
  obtain ⟨⟨r, hresp, _⟩, _⟩ := heldDone_frame h.cmd (s.appended h.bytes)
  refine ⟨_, hu, rfl, rfl, ⟨r, ?_⟩, fun cap hr => ?_⟩
  · rw [State.appended_frame] at hresp ⊢
    exact hresp
  have hend (script : List HostEvent) := resume_room (script := script) hb ht hr
  refine ⟨fun hs => ?_, fun rest hs => ?_⟩
  · rw [step_of_held (s := { t with capacity := cap }) hh hs, ← hscript]
    exact congrArg _ (hend t.script)
  · rw [step_wait_of_held (s := { t with capacity := cap }) hh hs]
    exact congrArg _ (hend rest)

/-! ## A run of commands, one by one (R47, R56) -/

theorem decode_encode (i : Instr) : decode (encode i) = .ok i := by
  rw [decode_eq, encode, Word.opc_append, Word.opd_append]
  cases i <;> rfl

/-- A command that runs on a Buffer which always accepts ends the same way wherever its last Buffer content fits,
whatever else waits at the port. -/
theorem exec_of_unlimited {s t : State} {i : Instr} (hu : s.capacity = none) (h : exec i s = .next t)
    {hold : Option Hold} {capacity : Option Nat} {script : List HostEvent}
    (hroom : ∀ c, capacity = some c → t.cursor ≤ c) :
    exec i { s with hold, capacity, script } = .next { t with hold, capacity, script } := by
  rcases exec_appends_or_unread h with ⟨vs, cmd, happ⟩ | hport
  · have hdone := exec_of_appends_room happ (State.roomFor_of_unlimited hu _)
    obtain rfl : t = heldDone cmd (s.appended vs) := Host.Outcome.next.inj (h.symm.trans hdone)
    rw [exec_of_appends_room happ.with_port fun c hc => ?_, heldDone_appended_with_port]
    have hfit := hroom c hc
    rwa [cursor_heldDone_appended] at hfit
  · exact hport

/-- The block takes the first command presented where none is held (R56). -/
theorem step_presenting_cons {s : State} (hn : s.hold = none) (i : Instr) (is : List Instr) :
    step (s.presenting (i :: is)) = exec i (s.presenting is) := by
  rw [step_command (s := s.presenting (i :: is)) hn rfl, acceptWord, decode_encode]
  rfl

theorem core_step : Sys2Proof.core.step = step := rfl

/-- A run of commands is the first of them and then the run of the rest. -/
theorem runCommands_cons {s u : State} {i : Instr} {is : List Instr} (hn : s.hold = none)
    (h : exec i (s.presenting is) = .next (u.presenting is)) : runCommands (i :: is) s = runCommands is u := by
  rw [← step_presenting_cons hn] at h
  simp only [runCommands, List.length_cons, Host.Core.run]
  rw [core_step, h]

/-- A run on a Buffer that always accepts begins with its first command, alone or before any others, and that command
leaves hold, capacity and port as they were. -/
theorem runCommands_cons_next {s t : State} {i : Instr} {is : List Instr} (hn : s.hold = none)
    (hu : s.capacity = none) (h : runCommands (i :: is) s = .next t) :
    ∃ u, exec i s = .next u ∧ u.hold = none ∧ u.capacity = none ∧ u.script = s.script ∧
      ∀ js, runCommands (i :: js) s = runCommands js u := by
  simp only [runCommands, List.length_cons, Host.Core.run] at h
  rw [core_step, step_presenting_cons hn] at h
  cases he : exec i (s.presenting is) with
  | next v =>
    have hv := exec_of_unlimited (s := s.presenting is) (hold := s.hold) (capacity := s.capacity)
      (script := s.script) hu he (by simp [hu])
    refine ⟨_, hv, hn, hu, rfl, fun js => runCommands_cons hn ?_⟩
    exact exec_of_unlimited hu hv (by simp [hu])
  | fault r => cases r
  | refused r => rw [he] at h; cases h

/-- Settles O55: by induction on the commands, each ends with a Buffer content that fits. -/
theorem bufferWithRoomMakesNoDifference : Obligations.BufferWithRoomMakesNoDifference := by
  intro s t is
  induction is generalizing s with
  | nil => intro _ h _; cases h; rfl
  | cons i is ih =>
    intro hn h hroom
    obtain ⟨u, hu, huh, huc, hus, hrun⟩ := runCommands_cons_next (s := { s with capacity := none }) hn rfl h
    have hfirst : ∀ c, s.capacity = some c → u.cursor ≤ c := fun c hc => hroom 1 u c (hrun []) hc
    have hport : State.presenting { u with capacity := s.capacity } is =
        { u with hold := s.hold, capacity := s.capacity, script := (s.presenting is).script } := by
      simp only [State.presenting, huh, hus, hn]
    have hstep : runCommands (i :: is) s = runCommands is { u with capacity := s.capacity } :=
      runCommands_cons hn (hport ▸ exec_of_unlimited rfl hu hfirst)
    have hsame : { u with capacity := none } = u := by rw [← huc]
    rw [hrun, ← hsame] at h
    rw [hstep]
    refine ih { u with capacity := s.capacity } huh h fun k w c hw hc => hroom (k + 1) w c ?_ hc
    rw [List.take_succ_cons, hrun, ← hsame]
    exact hw

end Sys2Proof.Machine
end

section
/-!
PROOFS. The encoding family (30_encoding.md): the command word and its decoder, the checks of R59 on a word at the
port, the responses a step delivers and their word of a finite COUNT_WIDTH, and the assembler's pseudo-instructions.
-/
namespace Sys2Proof.Machine

/-! ## The decoder and the encoder (R48, R50, R51) -/

/-- Settles O7: the word's two fields are the command's opcode and operand, and the map has the opcode's row. -/
theorem decodeOfEncodeIsTheCommand : Obligations.DecodeOfEncodeIsTheCommand := decode_encode

/-- A row's command has the row's opcode, and the operand it is given (R50). -/
theorem opcode_command {r : OpcodeRow} (hr : r ∈ opcodeMap) (d : Byte) :
    (r.command d).opcode = r.opc ∧ (r.command d).opd = d := by
  simp only [opcodeMap, List.mem_cons, List.not_mem_nil, or_false] at hr
  rcases hr with rfl | rfl | rfl | rfl | rfl | rfl | rfl | rfl | rfl <;> exact ⟨rfl, rfl⟩

/-- A word the decoder takes is the word of the command: its fields are the ones the command carries. -/
theorem encode_of_decode {w : Word} {i : Instr} (h : decode w = .ok i) : encode i = w := by
  rw [decode_eq] at h
  cases hr : opcodeMap.find? (fun r => r.opc == Word.opc w) with
  | none => rw [hr] at h; cases h
  | some r =>
    rw [hr] at h
    cases h
    obtain ⟨hopc, hopd⟩ := opcode_command (List.mem_of_find?_eq_some hr) (Word.opd w)
    have hrow : r.opc = Word.opc w := by simpa using List.find?_some hr
    calc encode (r.command (Word.opd w))
      _ = Word.opc w ++ Word.opd w := by rw [encode, hopc, hopd, hrow]
      _ = w := Word.append_fields w

/-- Settles O8. -/
theorem encodeOfDecodeIsTheWord : Obligations.EncodeOfDecodeIsTheWord := fun _ _ => encode_of_decode

/-- Settles O9: each of the nine words is the encoding of its command. -/
theorem specWordsDecode : Obligations.SpecWordsDecode :=
  ⟨decode_encode (.encStart 0), decode_encode (.encByte 0x4D), decode_encode (.encEnd 0),
    decode_encode (.decStart 0), decode_encode (.decByte 0x54), decode_encode (.decEnd 0),
    decode_encode (.mapEnc 63), decode_encode (.mapDec 0x75), decode_encode (.status 0)⟩

/-- The decoder takes a word exactly when the map has a row for its OPC (R51). -/
theorem exists_decode_eq_ok_iff {w : Word} :
    (∃ i, decode w = .ok i) ↔ Word.opc w ∈ opcodeMap.map OpcodeRow.opc := by
  rw [decode_eq, List.mem_map]
  cases hr : opcodeMap.find? (fun r => r.opc == Word.opc w) with
  | some r =>
    have hrow : r.opc = Word.opc w := by simpa using List.find?_some hr
    exact ⟨fun _ => ⟨r, List.mem_of_find?_eq_some hr, hrow⟩, fun _ => ⟨_, rfl⟩⟩
  | none => exact ⟨nofun, fun ⟨r, hmem, hrow⟩ => absurd (beq_iff_eq.2 hrow) (List.find?_eq_none.1 hr r hmem)⟩

/-! ## The checks of a command word (R57, R58, R59) -/

section
variable {s t : State} {w : Word} {rest : List HostEvent} {i : Instr}

/-- With no command held, a word that decodes at the port runs its command (R56, R59). -/
theorem step_of_decode (hn : s.hold = none) (hs : s.script = .command w :: rest) (hd : decode w = .ok i) :
    step s = exec i { s with script := rest } := by
  simp only [step_command hn hs, acceptWord, hd]

/-- With no command held, a word that does not decode is answered as one with an illegal opcode (R51). -/
theorem step_of_no_decode (hn : s.hold = none) (hs : s.script = .command w :: rest) (hd : ∀ i, decode w ≠ .ok i) :
    step s = .next (illegalOpcode { s with script := rest }) := by
  rw [step_command hn hs]
  rcases acceptWord_cases w { s with script := rest } with ⟨_, e⟩ | ⟨i, hi, _⟩
  · exact e
  · exact absurd hi (hd i)

theorem illegalOpcode_of_fault (hf : s.fault = true) : illegalOpcode s = s.answerFaulted := if_pos hf

theorem illegalOpcode_of_no_fault (hf : s.fault = false) : illegalOpcode s = s.raiseFault .illegalOpcode :=
  if_neg (Bool.eq_false_iff.1 hf)

/-- Without a fault a word that does not decode raises IllegalOpcode and nothing else (R51, R108). -/
theorem step_illegal (hf : s.fault = false) (hn : s.hold = none) (hs : s.script = .command w :: rest)
    (hd : ∀ i, decode w ≠ .ok i) : step s = .next (State.afterFault { s with script := rest } .illegalOpcode 1) := by
  rw [step_of_no_decode hn hs hd, illegalOpcode_of_no_fault (s := { s with script := rest }) hf]
  rfl

/-- STATUS with operand 0 is the only command that executes while faulted (R59, R109). -/
theorem executesWhileFaulted_iff : executesWhileFaulted i = true ↔ i = .status 0 := by
  cases i <;> simp [executesWhileFaulted]

/-- While faulted, a word other than 0x3000 gets the recorded cause and changes nothing else (R109). -/
theorem step_of_fault (hf : s.fault = true) (hn : s.hold = none) (hs : s.script = .command w :: rest)
    (hw : w ≠ 0x3000) : step s = .next (State.answerFaulted { s with script := rest }) := by
  cases hd : decode w with
  | error e =>
    rw [step_of_no_decode hn hs (by simp [hd]), illegalOpcode_of_fault (s := { s with script := rest }) hf]
  | ok i =>
    have hi : executesWhileFaulted i = false := by
      refine Bool.eq_false_iff.2 fun h => hw ?_
      rw [← encode_of_decode hd, executesWhileFaulted_iff.1 h]
      rfl
    rw [step_of_decode hn hs hd, exec_eq_gate]
    exact gate_faulted _ hf hi

/-- A nonzero operand of a `zero` form raises ReservedOperand (R58). -/
theorem operandFault_of_zero (hform : i.form = .zero) (hopd : i.opd ≠ 0) :
    operandFault i = some .reservedOperand := by
  cases i with
  | encStart x | encEnd x | decStart x | decEnd x | status x => exact if_neg hopd
  | encByte b | decByte b | mapEnc b | mapDec b => cases hform

/-- An operand of 64 or more of a `sym6` form raises SymbolOutOfRange (R68). -/
theorem operandFault_of_sym6 (hform : i.form = .sym6) (hopd : 64 ≤ i.opd.toNat) :
    operandFault i = some .symbolOutOfRange := by
  cases i with
  | mapEnc v => exact if_neg (Nat.not_lt.2 hopd)
  | encStart x | encByte x | encEnd x | decStart x | decByte x | decEnd x | mapDec x | status x => cases hform

/-- What a command can do in a MODE it is legal in: the recorded fault answers, its operand raises a fault, or its
rule runs (R59). -/
theorem exec_legal_cases (hl : legalIn i s.mode = true) (h : exec i s = .next t) :
    t = s.answerFaulted ∨ (∃ c, operandFault i = some c ∧ t = s.raiseFault c) ∨ ruleOf i s = .next t := by
  rw [exec_eq_gate, gate] at h
  rcases verdict_cases i s with ⟨hv, _⟩ | ⟨c, hv, _, ⟨hl', _⟩ | ⟨_, ho⟩⟩ | ⟨hv, _⟩ <;> rw [hv] at h
  · cases h; exact .inl rfl
  · rw [hl] at hl'; cases hl'
  · cases h; exact .inr (.inl ⟨c, ho, rfl⟩)
  · exact .inr (.inr h)

/-- MAP.ENC, MAP.DEC and STATUS deliver a response and nothing else, or raise the fault of their operand (R68, R69,
R99). -/
theorem exec_mapper_status_cases {x : Byte} (hi : i = .mapEnc x ∨ i = .mapDec x ∨ i = .status x)
    (h : exec i s = .next t) :
    (∃ r, t = s.respond r) ∨ ∃ c, operandFault i = some c ∧ t = s.raiseFault c := by
  have hl : legalIn i s.mode = true := by rcases hi with rfl | rfl | rfl <;> rfl
  rcases exec_legal_cases hl h with ht | hc | hr
  · exact .inl ⟨_, ht⟩
  · exact .inr hc
  · have ht := ruleOf_next hr
    rcases hi with rfl | rfl | rfl <;> exact .inl ⟨_, ht⟩

end

/-- Settles O11. -/
theorem stepRunsTheDecodedCommand : Obligations.StepRunsTheDecodedCommand := fun _ _ _ _ => step_of_decode

/-- Settles O4: the nine opcodes are those of the map's rows, and without a row the decoder answers no command. -/
theorem illegalOpcodeRaisesItsFaultOnly : Obligations.IllegalOpcodeRaisesItsFaultOnly := by
  refine ⟨fun _ => exists_decode_eq_ok_iff, by decide +kernel, fun s w rest hf hn hs hopc => ?_⟩
  exact step_illegal hf hn hs fun i hi => hopc (exists_decode_eq_ok_iff.1 ⟨i, hi⟩)

/-- Settles O5: the listed commands are not legal in these MODEs, and the other three are legal in every MODE. -/
theorem callBracketingIsEnforced : Obligations.CallBracketingIsEnforced := by
  refine ⟨fun s i hf hm => ?_, fun s t i ⟨x, hi⟩ h => ?_⟩
  · have hl : legalIn i s.mode = false := by
      cases i with
      | encStart x | decStart x | encByte x | encEnd x => exact beq_false_of_ne hm
      | decByte x | decEnd x => simp [legalIn, hm]
      | mapEnc x | mapDec x | status x => exact hm.elim
    rw [exec_eq_gate, gate_outOfSequence _ hf hl]
  · rcases exec_mapper_status_cases hi h with ⟨r, rfl⟩ | ⟨c, hc, rfl⟩
    · exact ⟨rfl, fun _ => rfl, fun hf => .inr hf⟩
    · refine ⟨rfl, fun _ => rfl, fun _ => .inl ?_⟩
      rcases operandFault_cause hc with rfl | rfl <;> nofun

/-- Settles O6: the check that applies decides what the gate answers. -/
theorem checksRunInTheStatedOrder : Obligations.ChecksRunInTheStatedOrder := by
  intro s w rest hn hs
  refine ⟨fun hf => ⟨?_, step_of_fault hf hn hs⟩, fun hf => ⟨step_illegal hf hn hs, fun i hd => ?_⟩⟩
  · rintro rfl
    rw [step_of_decode hn hs (decode_encode (.status 0))]
    exact gate_status statusRule _
  · rw [step_of_decode hn hs hd, exec_eq_gate]
    refine ⟨fun hl => ?_, fun hl hform hopd => ?_, fun hl hform hopd => ?_, fun hl hwf => ?_⟩
    · exact gate_outOfSequence _ hf hl
    · exact gate_operandFault _ hf hl (operandFault_of_zero hform hopd)
    · exact gate_operandFault _ hf hl (operandFault_of_sym6 hform hopd)
    · have hrun : gate i (ruleOf i) { s with script := rest } = ruleOf i { s with script := rest } :=
        gate_runs _ hf hl ((operandFault_eq_none_iff i).2 hwf)
      rw [hrun]
      cases i <;> rfl

/-! ## The response of a command (R52, R53, R54, R56) -/

/-- A response has a RES and CODE of R53 and R54, and DATA 0 unless it is OK. -/
def Response.coded (r : Response) : Prop :=
  (r.res = .ok ∧ r.code = 0) ∨
  (r.res = .decfail ∧ r.data = 0 ∧ (r.code = 1 ∨ r.code = 2 ∨ r.code = 3)) ∨
  (r.res = .fault ∧ r.data = 0 ∧ (r.code = 1 ∨ r.code = 2 ∨ r.code = 3 ∨ r.code = 4))

theorem coded_failResponse {kind : ErrKind} (h : kind ≠ .noError) : (failResponse kind).coded := by
  refine .inr (.inl ⟨rfl, rfl, ?_⟩)
  cases kind with
  | noError => exact absurd rfl h
  | invalidCharacter => exact .inl rfl
  | misplacedPadding => exact .inr (.inl rfl)
  | incompleteGroup => exact .inr (.inr rfl)

theorem coded_faultResponse {c : FaultCause} (hc : c ≠ .noFault) (hi : c ≠ .internalInvariant) :
    (faultResponse c).coded := by
  refine .inr (.inr ⟨rfl, rfl, ?_⟩)
  cases c with
  | noFault => exact absurd rfl hc
  | illegalOpcode => exact .inl rfl
  | commandOutOfSequence => exact .inr (.inl rfl)
  | reservedOperand => exact .inr (.inr (.inl rfl))
  | symbolOutOfRange => exact .inr (.inr (.inr rfl))
  | internalInvariant => exact absurd rfl hi

/-- The cause a faulted block answers with is one a rule raises (R107, R111). -/
theorem Inv.coded_recorded {s : State} (h : Inv s) (hf : s.fault = true) : (faultResponse s.faultCause).coded :=
  coded_faultResponse (fun hc => by simp [h.cause_noFault.1 hc] at hf) h.cause_reachable

/-- What a command that runs from `s` to `t` does at the port: it takes nothing more from it, and it delivers its one
response or holds and delivers none (R47, R52). -/
inductive Answers (s t : State) : Prop where
  /-- It has ended, with a response that has the codes of R53 and R54 if `s` meets the invariant. -/
  | delivers (r : Response) (coded : Inv s → r.coded) (hold : t.hold = none) (script : t.script = s.script)
      (responses : t.responses = s.responses ++ [r])
  /-- The Buffer has stopped it. -/
  | holds (hold : t.hold ≠ none) (script : t.script = s.script) (responses : t.responses = s.responses)

/-- From a state of the invariant, whatever a command adds to the responses has the stated codes. -/
theorem Answers.coded_of_mem {s t : State} (h : Answers s t) (hi : Inv s) {r : Response} (hr : r ∈ t.responses) :
    r ∈ s.responses ∨ r.coded := by
  cases h with
  | delivers r' hc _ _ hresp =>
    rw [hresp, List.mem_append, List.mem_singleton] at hr
    exact hr.imp_right fun (e : r = r') => e ▸ hc hi
  | holds _ _ hresp => exact .inl (hresp ▸ hr)

/-- A command that appends, from its first append or from the middle (R47). -/
theorem answers_appendFrom {s : State} (hn : s.hold = none) (hd : Hold) :
    Answers s (appendFrom hd (heldDone hd.cmd) s) := by
  rcases appendFrom_cases hd (heldDone hd.cmd) s with e | ⟨pre, v, left, _, _, e⟩ <;>
    rw [e, State.appended_frame]
  · obtain ⟨⟨r, hresp, hres, hcode⟩, hframe⟩ := heldDone_frame hd.cmd (s.appended hd.left)
    rw [State.appended_frame] at hresp hframe
    refine .delivers r (fun _ => .inl ⟨hres, hcode⟩) ?_ ?_ hresp <;> rw [hframe]
    exact hn
  · exact .holds (Option.some_ne_none _) rfl rfl

/-- Every command that executes answers: the rules of R68 to R99, one by one. -/
theorem answers_rule {i : Instr} {s t : State} (hn : s.hold = none) (h : ruleOf i s = .next t) : Answers s t := by
  have ht := ruleOf_next h
  have hok (n : Nat) : (okResponse n).coded := .inl ⟨rfl, rfl⟩
  have happ (vs : List Byte) (c : HeldCmd) : Answers s (appendThen vs c (heldDone c) s) :=
    answers_appendFrom hn ⟨vs, vs, c⟩
  have hdrain (hm : s.mode = .decFailed) (hi : Inv s) : (failResponse s.err).coded :=
    coded_failResponse (hi.failed_cursor hm).2.2
  cases i with
  | encStart x | decStart x | mapEnc v | mapDec b | status x =>
    cases ht; exact .delivers _ (fun _ => hok _) hn rfl rfl
  | encByte b => obtain ⟨vs, _, rfl⟩ := ht; exact happ vs _
  | encEnd x => obtain ⟨vs, _, rfl⟩ := ht; exact happ vs _
  | decByte b =>
    rcases ht with ⟨hm, rfl⟩ | ⟨_, kind, hk, _, rfl⟩ | ⟨_, _, rfl⟩ | ⟨_, _, v, _, rfl⟩
    · exact .delivers _ (hdrain hm) hn rfl rfl
    · have hk' : kind ≠ .noError := by rcases hk with ⟨_, rfl⟩ | ⟨_, _, rfl⟩ <;> nofun
      exact .delivers _ (fun _ => coded_failResponse hk') hn rfl rfl
    · exact .delivers _ (fun _ => hok _) hn rfl rfl
    · exact happ _ _
  | decEnd x =>
    rcases ht with ⟨hm, rfl⟩ | ⟨_, _, _, rfl⟩ | ⟨_, _, rfl⟩
    · exact .delivers _ (hdrain hm) hn rfl rfl
    · exact .delivers _ (fun _ => coded_failResponse (kind := .incompleteGroup) nofun) hn rfl rfl
    · exact .delivers _ (fun _ => hok _) hn rfl rfl

/-- A faulted block answers with the recorded cause (R109). -/
theorem answers_answerFaulted {s : State} (hn : s.hold = none) (hf : s.fault = true) : Answers s s.answerFaulted :=
  .delivers _ (fun hi => hi.coded_recorded hf) hn rfl rfl

/-- The fault action answers with its cause (R108). -/
theorem answers_raiseFault {s : State} (hn : s.hold = none) {c : FaultCause} (hc : c ≠ .noFault)
    (hi : c ≠ .internalInvariant) : Answers s (s.raiseFault c) :=
  .delivers _ (fun _ => coded_faultResponse hc hi) hn rfl rfl

/-- Every command word is answered (R52, R59). -/
theorem answers_acceptWord {w : Word} {s t : State} (hn : s.hold = none) (h : acceptWord w s = .next t) :
    Answers s t := by
  rcases acceptWord_cases w s with ⟨_, e⟩ | ⟨i, _, e⟩ <;> rw [e] at h
  · cases h
    cases hf : s.fault with
    | true => rw [illegalOpcode_of_fault hf]; exact answers_answerFaulted hn hf
    | false => rw [illegalOpcode_of_no_fault hf]; exact answers_raiseFault hn nofun nofun
  · rcases exec_cases h with ⟨hf, rfl⟩ | ⟨c, _, hc, hi, rfl⟩ | ⟨_, hr⟩
    · exact answers_answerFaulted hn hf
    · exact answers_raiseFault hn hc hi
    · exact answers_rule hn hr

/-- A held command that goes on answers or holds again (R47). -/
theorem answers_resume (hd : Hold) (s : State) : Answers { s with hold := none } (resume hd s) :=
  answers_appendFrom rfl hd

/-- The responses after a held command has gone on (R47). -/
theorem Inv.coded_of_mem_resume {s : State} (h : Inv s) {hd : Hold} {r : Response}
    (hr : r ∈ (resume hd s).responses) : r ∈ s.responses ∨ r.coded :=
  (answers_resume hd s).coded_of_mem h.without_hold hr

/-- The responses of a block left alone (R47, R119). -/
theorem Inv.coded_of_mem_runHeld {s : State} (h : Inv s) {r : Response} (hr : r ∈ (runHeld s).responses) :
    r ∈ s.responses ∨ r.coded := by
  rcases runHeld_cases s with ⟨_, e⟩ | ⟨hd, _, e⟩ <;> rw [e] at hr
  · exact .inl hr
  · exact h.coded_of_mem_resume hr

/-- Settles O33: taking a word answers it, and the port loses the word and nothing else. -/
theorem oneResponseForEachCommand : Obligations.OneResponseForEachCommand := by
  intro s t w rest hn hs h
  rw [step_command hn hs] at h
  cases answers_acceptWord (s := { s with script := rest }) hn h with
  | delivers r _ hold script responses => exact ⟨script, .inl ⟨hold, r, responses⟩⟩
  | holds hold script responses => exact ⟨script, .inr ⟨hold, responses⟩⟩

/-- Settles O43: only a command word and a held command that goes on deliver a response. -/
theorem responsesCarryTheStatedCodes : Obligations.ResponsesCarryTheStatedCodes := by
  intro s t h hstep r hr
  rcases step_cases hstep with ⟨_, _, rfl⟩ | ⟨hd, _, rfl, _⟩ | ⟨rest, _, rfl⟩ | ⟨rest, _, rfl⟩ |
    ⟨c, rest, _, rfl⟩ | ⟨bs, rest, _, _, _, rfl⟩ | ⟨w, rest, _, hn, ht⟩
  · exact .inl hr
  · exact h.coded_of_mem_resume hr
  · exact (h.with_unread (script := rest)).coded_of_mem_runHeld hr
  · exact .inl hr
  · exact .inl hr
  · exact .inl hr
  · exact (answers_acceptWord (s := { s with script := rest }) hn ht).coded_of_mem (h.with_unread (script := rest)) hr

/-! ## The response word of a finite COUNT_WIDTH (R55, R101) -/

/-- The number a response word holds: DATA below, CODE and RES above it, and no bit cut off (R55). -/
theorem wire_eq_some {W : Nat} {r : Response} (h : r.data < 2 ^ W) :
    ∃ x, wire W r = some x ∧ x.toNat = r.data + 2 ^ W * (r.code.toNat + 8 * (resCode r.res).toNat) := by
  refine ⟨_, if_pos (decide_eq_true h), ?_⟩
  have hc : r.code.toNat < 8 := r.code.isLt
  have hr : (resCode r.res).toNat < 4 := (resCode r.res).isLt
  have hsum : r.data + r.code.toNat * 2 ^ W + (resCode r.res).toNat * 2 ^ (W + 3) =
      r.data + 2 ^ W * (r.code.toNat + 8 * (resCode r.res).toNat) := by grind
  have hfits : r.data + 2 ^ W * (r.code.toNat + 8 * (resCode r.res).toNat) < 2 ^ (W + 5) :=
    calc r.data + 2 ^ W * (r.code.toNat + 8 * (resCode r.res).toNat)
      _ < 2 ^ W + 2 ^ W * 31 := Nat.add_lt_add_of_lt_of_le h (Nat.mul_le_mul_left _ (by omega))
      _ = 2 ^ (W + 5) := by grind
  rw [BitVec.toNat_ofNat, hsum, Nat.mod_eq_of_lt hfits]

/-- Above a number below `2 ^ W`, the number that was put there. -/
theorem add_mul_two_pow_div {W d : Nat} (h : d < 2 ^ W) (k : Nat) : (d + 2 ^ W * k) / 2 ^ W = k := by
  rw [Nat.add_mul_div_left _ _ (Nat.two_pow_pos W), Nat.div_eq_of_lt h, Nat.zero_add]

/-- The fields of a response word (R55). -/
theorem wire_fields {W : Nat} {r : Response} (h : r.data < 2 ^ W) :
    ∃ x, wire W r = some x ∧ (x.extractLsb' 0 W).toNat = r.data ∧ x.extractLsb' W 3 = r.code ∧
      (x.extractLsb' (W + 3) 2).toNat = (resCode r.res).toNat := by
  obtain ⟨x, hx, hn⟩ := wire_eq_some h
  have hc : r.code.toNat < 8 := r.code.isLt
  have hr : (resCode r.res).toNat < 4 := (resCode r.res).isLt
  refine ⟨x, hx, ?_, BitVec.eq_of_toNat_eq ?_, ?_⟩
  · rw [BitVec.extractLsb'_toNat, hn, Nat.shiftRight_zero, Nat.add_mul_mod_self_left, Nat.mod_eq_of_lt h]
  · rw [BitVec.extractLsb'_toNat, hn, Nat.shiftRight_eq_div_pow, add_mul_two_pow_div h]
    omega
  · rw [BitVec.extractLsb'_toNat, hn, Nat.shiftRight_eq_div_pow, Nat.pow_add, ← Nat.div_div_eq_div_mul,
      add_mul_two_pow_div h]
    omega

/-- The step of a realization from 16 bits on, where the model has a next state (R55, R101). -/
theorem stepAtWidth_of_next {W : Nat} {s t : State} (hW : 16 ≤ W) (h : step s = .next t) :
    stepAtWidth W s = if (delivered s t).all (fitsWidth W) then .next t else .refused .countTooWide := by
  have hW' : ¬ W < Config.minCountWidth := Nat.not_lt.2 hW
  rw [stepAtWidth, if_neg hW', h]

/-- Settles O37: `fitsWidth` decides both whether a response has a word and whether the step is refused. -/
theorem wireCarriesTheResponse : Obligations.WireCarriesTheResponse := by
  refine ⟨fun W r h => ?_, fun W r h => ?_, fun W s t hW hstep => ⟨fun hall => ?_, fun ⟨r, hr, hwide⟩ => ?_⟩,
    fun W s hW => if_pos hW⟩
  · obtain ⟨x, hx, hdata, hcode, hres⟩ := wire_fields h
    exact ⟨x, hx, hdata, hcode, hres.trans (by cases r.res <;> rfl)⟩
  · exact if_neg (by simpa [fitsWidth] using h)
  · rw [stepAtWidth_of_next hW hstep, if_pos]
    simpa [fitsWidth] using hall
  · rw [stepAtWidth_of_next hW hstep, if_neg]
    simpa [fitsWidth] using ⟨r, hr, hwide⟩

/-! ## The pseudo-instructions (R62) -/

/-- The immediates of an operand list are read back, in order (R61). -/
theorem immediateList_intersperse (b : Byte) (bs : List Byte) :
    immediateList (((b :: bs).map .imm).intersperse .comma) = some (b :: bs) := by
  induction bs generalizing b with
  | nil => rfl
  | cons c cs ih =>
    have htail := ih c
    simp only [List.map_cons] at htail
    simp only [List.map_cons, List.intersperse_cons_cons, immediateList, htail, Option.map_some]

/-- Likewise where there may be no operand (R62). -/
theorem immediates_intersperse (bs : List Byte) : immediates ((bs.map .imm).intersperse .comma) = some bs := by
  cases bs with
  | nil => rfl
  | cons b bs =>
    rw [immediates, immediateList_intersperse]
    cases bs <;> nofun

theorem assembleTokens_encBytes (ts : List Token) :
    assembleTokens (.name "enc.bytes".toList :: ts) = (immediates ts).map encBytes := rfl

theorem assembleTokens_encode (ts : List Token) :
    assembleTokens (.name "encode".toList :: ts) = (immediates ts).map encodeCall := rfl

/-- Inside a literal a character that completes no token leads to the next place (R61). -/
theorem lex_cons {st st' : LexState} {c : Char} {cs : List Char} (hl : commentMayStart st = false)
    (h : lexChar st c = some (st', [])) : lex st (c :: cs) = lex st' cs := by
  simp [lex, hl, h]

/-- A backslash in a string begins an escape (R62). -/
theorem lex_backslash (acc : List Byte) (cs : List Char) :
    lex (.inString acc) ('\\' :: cs) = lex (.stringEscape acc) cs :=
  lex_cons rfl rfl

/-- The two digits of `\xHH` make one byte (R62). -/
theorem lex_hexByte {h l : Char} {a b : Nat} (ha : digitValue 16 h = some a) (hb : digitValue 16 l = some b)
    (acc : List Byte) (cs : List Char) :
    lex (.stringHex acc none) (h :: l :: cs) = lex (.inString (BitVec.ofNat 8 (16 * a + b) :: acc)) cs := by
  rw [lex_cons (st' := .stringHex acc (some a)) rfl (by simp [lexChar, ha]),
    lex_cons (st' := .inString (BitVec.ofNat 8 (16 * a + b) :: acc)) rfl (by simp [lexChar, hb])]

/-- Settles O10: the operand list is read back, and each escape takes its characters one by one. -/
theorem pseudoInstructionsExpand : Obligations.PseudoInstructionsExpand := by
  refine ⟨fun bs => ⟨?_, ?_, rfl, rfl⟩, fun acc cs => ⟨?_, ?_, fun h l a b ha hb => ?_⟩⟩
  · rw [assembleTokens_encBytes, immediates_intersperse]; rfl
  · rw [assembleTokens_encode, immediates_intersperse]; rfl
  · rw [lex_backslash, lex_cons rfl rfl]
  · rw [lex_backslash, lex_cons rfl rfl]
  · rw [lex_backslash, lex_cons (st' := .stringHex acc none) rfl rfl, lex_hexByte ha hb]

end Sys2Proof.Machine
end

section
/-!
PROOFS. The alphabet mapper (40_alphabet_mapper.md): the table as the image of `sym`, `sym` and `cls` as inverses of
each other, MAP.ENC and MAP.DEC, and the precondition of `sym` in the encoder. A rule raises no fault, so whatever fault
a command raises is one its checks found.
-/
namespace Sys2Proof.Machine

/-! ## The table and its two functions (R64, R65, R66, R67) -/

/-- Values up to 25 are the upper-case letters (R64). -/
theorem toNat_sym_of_upper {v : Sym6} (h : v.toNat ≤ 25) : (sym v).toNat = 0x41 + v.toNat := by
  rw [sym, if_pos h]
  bv_omega

/-- Values from 26 to 51 are the lower-case letters (R64). -/
theorem toNat_sym_of_lower {v : Sym6} (h : 26 ≤ v.toNat) (h' : v.toNat ≤ 51) :
    (sym v).toNat = 0x61 + (v.toNat - 26) := by
  rw [sym, if_neg (Nat.not_le.2 h), if_pos h']
  bv_omega

/-- Values from 52 to 61 are the digits (R64). -/
theorem toNat_sym_of_digit {v : Sym6} (h : 52 ≤ v.toNat) (h' : v.toNat ≤ 61) :
    (sym v).toNat = 0x30 + (v.toNat - 52) := by
  rw [sym, if_neg (by omega), if_neg (Nat.not_le.2 h), if_pos h']
  bv_omega

/-- The table lists `sym` of every value, in order (R64, R65). -/
theorem alphabet_eq_map_sym : alphabet = (List.finRange 64).map fun n => sym (BitVec.ofFin n) := by decide

/-- `cls` takes the byte of a value back to the value (R67(b)). -/
theorem cls_sym (v : Sym6) : cls (sym v) = .valid v := by
  revert v
  decide

/-- `sym` takes the value of a byte back to the byte: range by range, it adds what `cls` subtracts (R67(c)). -/
theorem sym_of_cls_eq_valid {b : Byte} {v : Sym6} (h : cls b = .valid v) : sym v = b := by
  unfold cls at h
  repeat' split at h
  all_goals cases h
  · have hv : ((b - 0x41).setWidth 6).toNat = b.toNat - 0x41 := by bv_omega
    refine BitVec.eq_of_toNat_eq ?_
    rw [toNat_sym_of_upper (by omega)]
    omega
  · have hv : ((b - 0x61 + 26).setWidth 6).toNat = b.toNat - 0x61 + 26 := by bv_omega
    refine BitVec.eq_of_toNat_eq ?_
    rw [toNat_sym_of_lower (by omega) (by omega)]
    omega
  · have hv : ((b - 0x30 + 52).setWidth 6).toNat = b.toNat - 0x30 + 52 := by bv_omega
    refine BitVec.eq_of_toNat_eq ?_
    rw [toNat_sym_of_digit (by omega) (by omega)]
    omega
  next plus => exact plus.symm
  next slash => exact slash.symm

theorem sym_injective : Function.Injective sym := fun v w h => by
  simpa [cls_sym] using congrArg cls h

/-- `cls` answers Padding for the padding byte alone (R67(d)). -/
theorem cls_eq_padding_iff {b : Byte} : cls b = .padding ↔ b = paddingByte := by
  refine ⟨fun h => ?_, fun h => h ▸ rfl⟩
  by_cases hb : b = paddingByte
  · exact hb
  · rw [cls, if_neg hb] at h
    repeat' split at h
    all_goals cases h

/-- The padding byte is no symbol (R67(e)). -/
theorem sym_ne_paddingByte (v : Sym6) : sym v ≠ paddingByte := fun h => by
  simpa [cls_sym] using cls_eq_padding_iff.2 h

/-- The alphabet bytes are the image of `sym` (R67(a)). -/
theorem mem_alphabet_iff {b : Byte} : b ∈ alphabet ↔ ∃ v, sym v = b := by
  rw [alphabet_eq_map_sym, List.mem_map]
  exact ⟨fun ⟨n, _, h⟩ => ⟨_, h⟩, fun ⟨v, h⟩ => ⟨v.toFin, List.mem_finRange _, h⟩⟩

theorem nodup_alphabet : alphabet.Nodup := by
  rw [alphabet_eq_map_sym]
  exact List.Pairwise.map _ (fun _ _ hne h => hne (BitVec.ofFin.inj (sym_injective h))) (List.nodup_finRange 64)

/-- Entry `v` of the table is `sym v` (R65). -/
theorem getElem?_alphabet (v : Sym6) : alphabet[v.toNat]? = some (sym v) := by
  simp [alphabet_eq_map_sym, v.isLt]

/-- Settles O27: the table is `sym` listed in order, so it has no repeat and lacks the byte that is no symbol. -/
theorem alphabetIsTheFiveRanges : Obligations.AlphabetIsTheFiveRanges := by
  refine ⟨rfl, nodup_alphabet, getElem?_alphabet, fun _ => toNat_sym_of_upper, fun _ => toNat_sym_of_lower,
    fun _ => toNat_sym_of_digit, rfl, rfl, rfl, fun h => ?_⟩
  obtain ⟨v, hv⟩ := mem_alphabet_iff.1 h
  exact sym_ne_paddingByte v hv

/-- Settles O28: `sym` and `cls` are inverse to each other, which gives the rest but the count of Invalid bytes. -/
theorem mapperLaws : Obligations.MapperLaws :=
  ⟨fun _ _ h => sym_injective h, fun _ => mem_alphabet_iff, cls_sym, fun _ _ => sym_of_cls_eq_valid,
    fun _ => cls_eq_padding_iff, sym_ne_paddingByte, by decide +kernel⟩

/-! ## MAP.ENC and MAP.DEC (R68, R69, R70) -/

/-- Settles O29: MAP.ENC is legal in every MODE, and its operand's check is the bound 64. -/
theorem mapEncAppliesSym : Obligations.MapEncAppliesSym := by
  intro s x hf
  rw [exec_eq_gate]
  refine ⟨fun hx => ?_, fun hx => ?_⟩
  · have hop : operandFault (.mapEnc x) = none := if_pos hx
    rw [gate_runs _ hf rfl hop]
    rfl
  · exact gate_operandFault _ hf rfl (operandFault_of_sym6 rfl hx)

/-- A packed value is the value: its tag is 00 (R70). -/
@[simp] theorem toNat_pack_valid (v : Sym6) : (pack (.valid v)).toNat = v.toNat :=
  BitVec.toNat_setWidth_of_le (by decide)

/-- Settles O30: MAP.DEC passes its checks in every MODE, and the packed DATA is read off for each variant. -/
theorem mapDecAppliesCls : Obligations.MapDecAppliesCls := by
  intro s b hf
  rw [exec_eq_gate, gate_runs _ hf rfl rfl, ruleOf, mapDecRule]
  cases cls b with
  | valid v => rw [toNat_pack_valid]; rfl
  | invalid => rfl
  | padding => rfl

/-! ## The faults a command raises, and the precondition of `sym` (R59, R65, R72) -/

section
variable {s t : State} {i : Instr}

/-- A command that appends raises no fault, whether it completes or holds (R47). -/
theorem fault_appendThen (vs : List Byte) (c : HeldCmd) (s : State) :
    (appendThen vs c (heldDone c) s).fault = s.fault := by
  rcases appendThen_cases vs c (heldDone c) s with e | ⟨pre, v, left, _, _, e⟩
  · rw [e, (heldDone_frame c _).2, State.appended_frame]
  · rw [e, State.appended_frame]

/-- A rule raises no fault: the checks before it do (R59). -/
theorem ruleOf_keeps_fault (h : ruleOf i s = .next t) : t.fault = s.fault := by
  have ht := ruleOf_next h
  cases i with
  | encStart x | decStart x | mapEnc v | mapDec b | status x => cases ht; rfl
  | encByte b | encEnd x => obtain ⟨vs, _, rfl⟩ := ht; exact fault_appendThen vs _ s
  | decByte b =>
    rcases ht with ⟨_, rfl⟩ | ⟨_, kind, _, _, rfl⟩ | ⟨_, _, rfl⟩ | ⟨_, _, v, _, rfl⟩
    · rfl
    · rfl
    · rfl
    · exact fault_appendThen _ _ s
  | decEnd x => rcases ht with ⟨_, rfl⟩ | ⟨_, _, _, rfl⟩ | ⟨_, _, rfl⟩ <;> rfl

/-- A fault a command raises is the one its MODE or its operand gives (R57, R58, R68). -/
theorem faultCause_of_raised (h : exec i s = .next t) (hs : s.fault = false) (ht : t.fault = true) :
    t.faultCause = .commandOutOfSequence ∨ operandFault i = some t.faultCause := by
  cases hl : legalIn i s.mode with
  | false =>
    rw [exec_eq_gate, gate_outOfSequence _ hs hl] at h
    cases h
    exact .inl rfl
  | true =>
    rcases exec_legal_cases hl h with rfl | ⟨c, hc, rfl⟩ | hr
    · exact absurd (hs.symm.trans ht) nofun
    · exact .inr hc
    · exact absurd ((hs.symm.trans (ruleOf_keeps_fault hr).symm).trans ht) nofun

/-- Only the operand of MAP.ENC raises SymbolOutOfRange (R68). -/
theorem eq_mapEnc_of_symbolOutOfRange (h : operandFault i = some .symbolOutOfRange) : ∃ x, i = .mapEnc x := by
  cases i with
  | mapEnc x => exact ⟨x, rfl⟩
  | encByte x | decByte x | mapDec x => cases h
  | encStart x | encEnd x | decStart x | decEnd x | status x =>
    rw [operandFault] at h
    split at h <;> cases h

end

/-- Settles O18: the stash and what is combined with it are six bits wide, and the encoder's checks raise other
faults. -/
theorem encoderKeepsThePreconditionOfSym : Obligations.EncoderKeepsThePreconditionOfSym := by
  intro s hstash
  refine ⟨fun b => ⟨shift_lt (by decide), or_lt hstash (shift_lt (by decide)), or_lt hstash (shift_lt (by decide)),
    low6_lt b⟩, fun b => ?_, ?_, fun i t hi hf h ht hcause => ?_⟩
  · simp [encSymbols_of_lt b hstash]
  · simp [encTail_of_lt hstash]
  · rcases faultCause_of_raised h hf ht with hc | hc
    · exact absurd (hc.symm.trans hcause) nofun
    · obtain ⟨x, rfl⟩ := eq_mapEnc_of_symbolOutOfRange (hcause ▸ hc)
      obtain ⟨y, e | e | e⟩ := hi <;> cases e

end Sys2Proof.Machine
end

section
/-!
PROOFS. The encoder (41_encoder.md): ENC.START, ENC.BYTE and ENC.END phase by phase, what they leave unchanged, and whole
encode calls. Each command of an open call is one move `State.encoded` (or, at the end, `State.encodeEnded`); two moves in
a row are one, so a run over any input is the induction over its groups of three bytes that `encodeText` itself makes.
-/
namespace Sys2Proof.Machine

/-! ## The stash in bits (R76, R77, R78) -/

/-- A mask of low ones keeps the low bits. -/
theorem and_allOnes_setWidth (b : Byte) (n : Nat) :
    b &&& (BitVec.allOnes n).setWidth 8 = (b.extractLsb' 0 n).setWidth 8 := by
  ext i hi
  grind

theorem and_low2 (b : Byte) : b &&& 0x03 = (b.extractLsb' 0 2).setWidth 8 := and_allOnes_setWidth b 2

theorem and_low4 (b : Byte) : b &&& 0x0F = (b.extractLsb' 0 4).setWidth 8 := and_allOnes_setWidth b 4

/-- The low six bits as a symbol value (R78). -/
theorem setWidth_and_low6 (b : Byte) : (b &&& 0x3F).setWidth 6 = b.setWidth 6 := by
  have hmask : b &&& 0x3F = (b.extractLsb' 0 6).setWidth 8 := and_allOnes_setWidth b 6
  rw [hmask]
  ext i hi
  grind

/-- The stash of phase 0 by its bits: the byte's low two at 5:4 (90_conflicts.md C1). -/
theorem stash_phase0_bits (b : Byte) : (b &&& 0x03) <<< 4 = 0#2 ++ b.extractLsb' 0 2 ++ 0#4 := by
  rw [and_low2]
  ext i hi
  grind

/-! ## The symbols of a group (R76, R77, R78) -/

/-- What a group's first byte appends. -/
def firstSymbol (a : Byte) : Byte := sym (a.extractLsb' 2 6)

/-- What its second byte appends, after the stash of the first. -/
def secondSymbol (a b : Byte) : Byte := sym (((a &&& 0x03) <<< 4 ||| (b >>> 4)).setWidth 6)

/-- What its third byte appends first, after the stash of the second. -/
def thirdSymbol (b c : Byte) : Byte := sym (((b &&& 0x0F) <<< 2 ||| (c >>> 6)).setWidth 6)

/-! ## Part of an encode call as one move -/

/-- The state when, from `s` on, `vs` has been appended, the encoder has come to phase `p` with this stash, and `rs` has
been delivered. -/
def State.encoded (s : State) (vs : List Byte) (p : Fin 3) (stash : Byte) (rs : List Response) : State :=
  { s with
    mem := vs.foldl Memory.append s.mem, outCount := s.outCount + vs.length, encPhase := p, encStash := stash,
    responses := s.responses ++ rs }

/-- The state when the call has then been closed by ENC.END, which has answered with the count (R79). -/
def State.encodeEnded (s : State) (vs : List Byte) (rs : List Response) : State :=
  { s.encoded vs 0 0 (rs ++ [okResponse (s.outCount + vs.length)]) with mode := .idle }

section
variable {s t u : State} {i : Instr} {is : List Instr} {b : Byte} {vs ws : List Byte} {rs qs : List Response}
  {p q : Fin 3} {x y : Byte}

theorem State.encoded_encoded : (s.encoded vs p x rs).encoded ws q y qs = s.encoded (vs ++ ws) q y (rs ++ qs) := by
  simp [State.encoded, List.foldl_append, Nat.add_assoc]

theorem State.encodeEnded_encoded : (s.encoded vs p x rs).encodeEnded ws qs = s.encodeEnded (vs ++ ws) (rs ++ qs) := by
  have hcount : (s.encoded vs p x rs).outCount + ws.length = s.outCount + (vs ++ ws).length := by
    simp [State.encoded, Nat.add_assoc]
  rw [State.encodeEnded, State.encodeEnded, State.encoded_encoded, hcount, List.append_assoc]

/-! ## ENC.BYTE and ENC.END where the Buffer has room (R75 to R79) -/

theorem exec_encByte_room (hf : s.fault = false) (hm : s.mode = .enc) (hv : encSymbols b s = some vs)
    (hr : s.roomFor vs.length) : exec (.encByte b) s = .next (encByteDone b (s.appended vs)) :=
  exec_of_appends_room (cmd := .encByte b) ⟨hf, .inl ⟨b, rfl, hm, rfl, hv⟩⟩ hr

/-- R76. The value appended comes from the byte alone, so nothing is asked of the stash. -/
theorem exec_encByte_phase0 (hf : s.fault = false) (hm : s.mode = .enc) (hp : s.encPhase = 0) (hr : s.roomFor 1) :
    exec (.encByte b) s =
      .next (s.encoded [sym (b.extractLsb' 2 6)] 1 ((b &&& 0x03) <<< 4) [okResponse 1]) := by
  have hv : encSymbols b s = some [sym (b.extractLsb' 2 6)] := by
    simp only [encSymbols, hp]
    exact symsOf_one (shift_lt (by decide))
  rw [exec_encByte_room hf hm hv hr, State.appended_frame]
  simp only [encByteDone, hp]
  rfl

/-- R77. -/
theorem exec_encByte_phase1 (hf : s.fault = false) (hm : s.mode = .enc) (hp : s.encPhase = 1)
    (hx : s.encStash.toNat < 64) (hr : s.roomFor 1) :
    exec (.encByte b) s =
      .next (s.encoded [sym ((s.encStash ||| (b >>> 4)).setWidth 6)] 2 ((b &&& 0x0F) <<< 2) [okResponse 1]) := by
  have hv : encSymbols b s = some [sym ((s.encStash ||| (b >>> 4)).setWidth 6)] := by
    simp only [encSymbols_of_lt b hx, hp]
  rw [exec_encByte_room hf hm hv hr, State.appended_frame]
  simp only [encByteDone, hp]
  rfl

/-- R78. -/
theorem exec_encByte_phase2 (hf : s.fault = false) (hm : s.mode = .enc) (hp : s.encPhase = 2)
    (hx : s.encStash.toNat < 64) (hr : s.roomFor 2) :
    exec (.encByte b) s =
      .next (s.encoded [sym ((s.encStash ||| (b >>> 6)).setWidth 6), sym (b.setWidth 6)] 0 0 [okResponse 2]) := by
  have hv : encSymbols b s = some [sym ((s.encStash ||| (b >>> 6)).setWidth 6), sym (b.setWidth 6)] := by
    simp only [encSymbols_of_lt b hx, hp, setWidth_and_low6]
  rw [exec_encByte_room hf hm hv hr, State.appended_frame]
  simp only [encByteDone, hp]
  rfl

/-- ENC.END appends the tail of its phase and closes the call (R79). -/
theorem exec_encEnd_room (hf : s.fault = false) (hm : s.mode = .enc) (hv : encTail s = some vs)
    (hr : s.roomFor vs.length) : exec (.encEnd 0) s = .next (s.encodeEnded vs []) := by
  rw [exec_of_appends_room (cmd := .encEnd) ⟨hf, .inr (.inl ⟨rfl, hm, rfl, hv⟩)⟩ hr, State.appended_frame]
  rfl

theorem encTail_phase0 (hp : s.encPhase = 0) : encTail s = some [] := by
  simp only [encTail, hp]

theorem encTail_phase1 (hp : s.encPhase = 1) (hx : s.encStash.toNat < 64) :
    encTail s = some [sym (s.encStash.setWidth 6), paddingByte, paddingByte] := by
  simp only [encTail_of_lt hx, hp]

theorem encTail_phase2 (hp : s.encPhase = 2) (hx : s.encStash.toNat < 64) :
    encTail s = some [sym (s.encStash.setWidth 6), paddingByte] := by
  simp only [encTail_of_lt hx, hp]

/-- ENC.START opens the call (R74). -/
theorem exec_encStart (hf : s.fault = false) (hm : s.mode = .idle) :
    exec (.encStart 0) s = .next
      { s with
        mode := .enc, encPhase := 0, encStash := 0, outCount := 0,
        hints := s.hints ++ [Config.reserveHint s.hints.length], responses := s.responses ++ [⟨.ok, 0, 0⟩] } := by
  rw [exec_eq_gate, gate_runs _ hf (by simp [legalIn, hm]) rfl]
  rfl

/-- A nonzero operand of a `zero` form, in a MODE the command is legal in (R58). -/
theorem exec_reservedOperand (hf : s.fault = false) (hl : legalIn i s.mode = true) (hform : i.form = .zero)
    (hopd : i.opd ≠ 0) : exec i s = .next (s.afterFault .reservedOperand 3) := by
  rw [exec_eq_gate]
  exact gate_operandFault _ hf hl (operandFault_of_zero hform hopd)

/-! ## What the encoder leaves unchanged (R33, R37) -/

/-- A command that answers a next state has written the fault registers and a response alone, or its rule has run
(R59). -/
theorem exec_fault_or_rule (h : exec i s = .next t) :
    (∃ f c rs, t = { s with fault := f, faultCause := c, responses := rs }) ∨ ruleOf i s = .next t := by
  rcases exec_cases h with ⟨_, rfl⟩ | ⟨c, _, _, _, rfl⟩ | ⟨_, hr⟩
  · exact .inl ⟨_, _, _, rfl⟩
  · exact .inl ⟨_, _, _, rfl⟩
  · exact .inr hr

theorem encByteDone_frame (b : Byte) (s : State) :
    encByteDone b s = { s with
      encPhase := (encByteDone b s).encPhase, encStash := (encByteDone b s).encStash,
      responses := (encByteDone b s).responses } := by
  unfold encByteDone
  split <;> rfl

/-- ENC.BYTE past its checks, whether it completes or holds (R47, R75). -/
theorem encByte_appendThen_frame (ht : t = appendThen vs (.encByte b) (encByteDone b) s) :
    t = { s with
      encPhase := t.encPhase, encStash := t.encStash, outCount := t.outCount, hold := t.hold, mem := t.mem,
      responses := t.responses } := by
  rcases appendThen_cases vs (.encByte b) (encByteDone b) s with e | ⟨pre, v, left, _, _, e⟩ <;>
    rw [e, State.appended_frame] at ht
  · rw [ht, encByteDone_frame]
  · rw [ht]

/-- ENC.END past its checks, whether it completes or holds (R47, R79). -/
theorem encEnd_appendThen_frame (ht : t = appendThen vs .encEnd encEndDone s) :
    t = { s with
      mode := t.mode, encPhase := t.encPhase, encStash := t.encStash, outCount := t.outCount, hold := t.hold,
      mem := t.mem, responses := t.responses } := by
  rcases appendThen_cases vs .encEnd encEndDone s with e | ⟨pre, v, left, _, _, e⟩ <;>
    rw [e, State.appended_frame] at ht <;> rw [ht]
  rfl

/-! ## One command of a run -/

/-- A run goes on from what its first command leaves, where that command leaves hold, capacity and port alone. -/
theorem runCommands_cons_of_exec (hn : s.hold = none) (hc : s.capacity = none) (h : exec i s = .next u)
    (hold : u.hold = s.hold) (capacity : u.capacity = s.capacity) (script : u.script = s.script) :
    runCommands (i :: is) s = runCommands is u := by
  refine runCommands_cons hn ?_
  have hport : u.presenting is =
      { u with hold := s.hold, capacity := s.capacity, script := (s.presenting is).script } := by
    simp only [State.presenting, ← hold, ← capacity, ← script]
  rw [hport]
  exact exec_of_unlimited hc h (by simp [hc])

/-- An encode call is open on a Buffer that always accepts, and no command is held. -/
structure EncOpen (s : State) : Prop where
  fault : s.fault = false
  mode : s.mode = .enc
  hold : s.hold = none
  capacity : s.capacity = none

theorem EncOpen.encoded (ho : EncOpen s) : EncOpen (s.encoded vs p x rs) :=
  ⟨ho.fault, ho.mode, ho.hold, ho.capacity⟩

theorem EncOpen.roomFor (ho : EncOpen s) (n : Nat) : s.roomFor n := State.roomFor_of_unlimited ho.capacity n

theorem EncOpen.run_cons (ho : EncOpen s) (h : exec i s = .next (s.encoded vs p x rs)) :
    runCommands (i :: is) s = runCommands is (s.encoded vs p x rs) :=
  runCommands_cons_of_exec ho.hold ho.capacity h rfl rfl rfl

theorem EncOpen.run_encEnd (ho : EncOpen s) (hv : encTail s = some vs) :
    runCommands [.encEnd 0] s = .next (s.encodeEnded vs []) :=
  runCommands_cons_of_exec ho.hold ho.capacity (exec_encEnd_room ho.fault ho.mode hv (ho.roomFor _)) rfl rfl rfl

/-- ENC.END after some bytes of the call. -/
theorem EncOpen.run_encEnd_encoded (ho : EncOpen s) (hv : encTail (s.encoded vs p x rs) = some ws) :
    runCommands [.encEnd 0] (s.encoded vs p x rs) = .next (s.encodeEnded (vs ++ ws) rs) := by
  rw [ho.encoded.run_encEnd hv, State.encodeEnded_encoded, List.append_nil]

/-- The first byte of a group (R76). -/
theorem EncOpen.run_first (ho : EncOpen s) (hp : s.encPhase = 0) (a : Byte) :
    runCommands (.encByte a :: is) s =
      runCommands is (s.encoded [firstSymbol a] 1 ((a &&& 0x03) <<< 4) [okResponse 1]) :=
  ho.run_cons (exec_encByte_phase0 ho.fault ho.mode hp (ho.roomFor 1))

/-- The first two bytes of a group (R76, R77). -/
theorem EncOpen.run_firstTwo (ho : EncOpen s) (hp : s.encPhase = 0) (a b : Byte) :
    runCommands (.encByte a :: .encByte b :: is) s = runCommands is
      (s.encoded [firstSymbol a, secondSymbol a b] 2 ((b &&& 0x0F) <<< 2) [okResponse 1, okResponse 1]) := by
  rw [ho.run_first hp, ho.encoded.run_cons
    (exec_encByte_phase1 ho.fault ho.mode rfl (stash_after_phase0 a).1 (ho.encoded.roomFor 1)), State.encoded_encoded]
  rfl

/-- A whole group (R76, R77, R78). -/
theorem EncOpen.run_group (ho : EncOpen s) (hp : s.encPhase = 0) (a b c : Byte) :
    runCommands (.encByte a :: .encByte b :: .encByte c :: is) s = runCommands is
      (s.encoded [firstSymbol a, secondSymbol a b, thirdSymbol b c, sym (c.setWidth 6)] 0 0
        [okResponse 1, okResponse 1, okResponse 2]) := by
  rw [ho.run_firstTwo hp, ho.encoded.run_cons
    (exec_encByte_phase2 ho.fault ho.mode rfl (stash_after_phase1 b).1 (ho.encoded.roomFor 2)), State.encoded_encoded]
  rfl

/-! ## The text of a group, by the stashes (R73) -/

theorem encodeText_one (a : Byte) :
    encodeText [a] = [firstSymbol a, sym (((a &&& 0x03) <<< 4).setWidth 6), paddingByte, paddingByte] := by
  have hfirst : (a ++ 0#4).extractLsb' 6 6 = a.extractLsb' 2 6 := by ext i hi; grind
  have hsecond : (a ++ 0#4).extractLsb' 0 6 = ((a &&& 0x03) <<< 4).setWidth 6 := by
    rw [and_low2]; ext i hi; grind
  simp only [encodeText, firstSymbol, hfirst, hsecond]

theorem encodeText_two (a b : Byte) :
    encodeText [a, b] =
      [firstSymbol a, secondSymbol a b, sym (((b &&& 0x0F) <<< 2).setWidth 6), paddingByte] := by
  have hfirst : (a ++ b ++ 0#2).extractLsb' 12 6 = a.extractLsb' 2 6 := by ext i hi; grind
  have hsecond : (a ++ b ++ 0#2).extractLsb' 6 6 = ((a &&& 0x03) <<< 4 ||| (b >>> 4)).setWidth 6 := by
    rw [and_low2]; ext i hi; grind
  have hthird : (a ++ b ++ 0#2).extractLsb' 0 6 = ((b &&& 0x0F) <<< 2).setWidth 6 := by
    rw [and_low4]; ext i hi; grind
  simp only [encodeText, firstSymbol, secondSymbol, hfirst, hsecond, hthird]

theorem encodeText_group (a b c : Byte) (rest : List Byte) :
    encodeText (a :: b :: c :: rest) =
      [firstSymbol a, secondSymbol a b, thirdSymbol b c, sym (c.setWidth 6)] ++ encodeText rest := by
  have hfirst : (a ++ b ++ c).extractLsb' 18 6 = a.extractLsb' 2 6 := by ext i hi; grind
  have hsecond : (a ++ b ++ c).extractLsb' 12 6 = ((a &&& 0x03) <<< 4 ||| (b >>> 4)).setWidth 6 := by
    rw [and_low2]; ext i hi; grind
  have hthird : (a ++ b ++ c).extractLsb' 6 6 = ((b &&& 0x0F) <<< 2 ||| (c >>> 6)).setWidth 6 := by
    rw [and_low4]; ext i hi; grind
  have hfourth : (a ++ b ++ c).extractLsb' 0 6 = c.setWidth 6 := by ext i hi; grind
  simp only [encodeText, firstSymbol, secondSymbol, thirdSymbol, hfirst, hsecond, hthird, hfourth,
    List.cons_append, List.nil_append]

/-! ## Whole encode calls (R73, R80, R81) -/

/-- From a group boundary of an open call, any bytes and ENC.END append their text and close the call. -/
theorem EncOpen.run_encBytes_encEnd (bs : List Byte) (ho : EncOpen s) (hp : s.encPhase = 0) :
    ∃ rs, rs.length = bs.length ∧
      runCommands (encBytes bs ++ [.encEnd 0]) s = .next (s.encodeEnded (encodeText bs) rs) := by
  induction bs using encodeText.induct generalizing s with
  | case1 => exact ⟨[], rfl, ho.run_encEnd (encTail_phase0 hp)⟩
  | case2 a =>
    rw [encodeText_one]
    exact ⟨[okResponse 1], rfl,
      (ho.run_first hp a).trans (ho.run_encEnd_encoded (encTail_phase1 rfl (stash_after_phase0 a).1))⟩
  | case3 a b =>
    rw [encodeText_two]
    exact ⟨[okResponse 1, okResponse 1], rfl,
      (ho.run_firstTwo hp a b).trans (ho.run_encEnd_encoded (encTail_phase2 rfl (stash_after_phase1 b).1))⟩
  | case4 a b c rest ih =>
    obtain ⟨rs, hlen, hrun⟩ := ih ho.encoded rfl
    refine ⟨[okResponse 1, okResponse 1, okResponse 2] ++ rs, by simp [hlen], (ho.run_group hp a b c).trans ?_⟩
    rw [encodeText_group, ← State.encodeEnded_encoded]
    exact hrun

/-- A whole encode call: the text of its input is appended, and every command is answered. -/
theorem Ready.run_encodeCall (h : Ready s) (bs : List Byte) :
    ∃ rs, rs.length = bs.length + 1 ∧ runCommands (encodeCall bs) s = .next
      { s with
        encPhase := 0, encStash := 0, outCount := (encodeText bs).length,
        mem := (encodeText bs).foldl Memory.append s.mem,
        hints := s.hints ++ [Config.reserveHint s.hints.length],
        responses := s.responses ++ rs ++ [⟨.ok, 0, (encodeText bs).length⟩] } := by
  obtain ⟨rs, hlen, hrun⟩ := EncOpen.run_encBytes_encEnd bs
    (s := { s with
      mode := .enc, encPhase := 0, encStash := 0, outCount := 0,
      hints := s.hints ++ [Config.reserveHint s.hints.length], responses := s.responses ++ [⟨.ok, 0, 0⟩] })
    ⟨h.fault, rfl, h.hold, h.capacity⟩ rfl
  refine ⟨⟨.ok, 0, 0⟩ :: rs, by simp [hlen], ?_⟩
  rw [encodeCall, runCommands_cons_of_exec h.hold h.capacity (exec_encStart h.fault h.mode) rfl rfl rfl, hrun]
  simp [State.encodeEnded, State.encoded, okResponse, h.mode]

theorem length_encodeText (bs : List Byte) : (encodeText bs).length = 4 * ((bs.length + 2) / 3) := by
  induction bs using encodeText.induct with
  | case1 => rfl
  | case2 a => simp [encodeText_one]
  | case3 a b => simp [encodeText_two]
  | case4 a b c rest ih =>
    rw [encodeText_group, List.length_append, ih]
    simp only [List.length_cons, List.length_nil]
    omega

@[simp] theorem sym_mem_alphabet (v : Sym6) : sym v ∈ alphabet := mem_alphabet_iff.2 ⟨v, rfl⟩

@[simp] theorem firstSymbol_mem_alphabet (a : Byte) : firstSymbol a ∈ alphabet := sym_mem_alphabet _

@[simp] theorem secondSymbol_mem_alphabet (a b : Byte) : secondSymbol a b ∈ alphabet := sym_mem_alphabet _

@[simp] theorem thirdSymbol_mem_alphabet (b c : Byte) : thirdSymbol b c ∈ alphabet := sym_mem_alphabet _

/-- A text is symbols and then the padding of its last group (R81). -/
theorem encodeText_eq_body_padding (bs : List Byte) :
    ∃ body n, encodeText bs = body ++ List.replicate n paddingByte ∧ (∀ b ∈ body, b ∈ alphabet) ∧ n ≤ 2 ∧
      (n ≠ 0 ↔ bs.length % 3 ≠ 0) := by
  induction bs using encodeText.induct with
  | case1 => exact ⟨[], 0, by simp [encodeText]⟩
  | case2 a => exact ⟨[_, _], 2, encodeText_one a, by simp⟩
  | case3 a b => exact ⟨[_, _, _], 1, encodeText_two a b, by simp⟩
  | case4 a b c rest ih =>
    obtain ⟨body, n, htext, hbody, hn, hiff⟩ := ih
    refine ⟨[firstSymbol a, secondSymbol a b, thirdSymbol b c, sym (c.setWidth 6)] ++ body, n, ?_, ?_, hn, ?_⟩
    · rw [encodeText_group, htext, List.append_assoc]
    · simpa using hbody
    · simp only [List.length_cons]
      omega

end

/-! ## The statements -/

/-- Settles O12. -/
theorem encStartOpensAnEncodeCall : Obligations.EncStartOpensAnEncodeCall := by
  intro s hf
  exact ⟨exec_encStart hf, fun x hm => callBracketingIsEnforced.1 s (.encStart x) hf hm,
    fun x hm hx => exec_reservedOperand hf (beq_iff_eq.2 hm) rfl hx⟩

/-- Settles O13: the stash the rule writes has the stated bits. -/
theorem encByteInPhase0 : Obligations.EncByteInPhase0 := by
  intro s b hf hm hp hr
  rw [exec_encByte_phase0 hf hm hp hr, stash_phase0_bits]
  rfl

/-- Settles O14. -/
theorem encByteInPhase1 : Obligations.EncByteInPhase1 :=
  fun _ _ hf hm hp hx hr => exec_encByte_phase1 hf hm hp hx hr

/-- Settles O15. -/
theorem encByteInPhase2 : Obligations.EncByteInPhase2 := by
  intro s b hf hm hp hx hr
  rw [exec_encByte_phase2 hf hm hp hx hr]
  simp [State.encoded, Memory.append, okResponse]

/-- Settles O16: the tail decides what is appended, and the checks what is raised. -/
theorem encEndPadsAndCloses : Obligations.EncEndPadsAndCloses := by
  intro s hf
  refine ⟨fun hm hp => ?_, fun hm hp hx hr => ?_, fun hm hp hx hr => ?_,
    fun x hm => callBracketingIsEnforced.1 s (.encEnd x) hf hm,
    fun x hm hx => exec_reservedOperand hf (beq_iff_eq.2 hm) rfl hx⟩
  · rw [exec_of_appends (cmd := .encEnd) ⟨hf, .inr (.inl ⟨rfl, hm, rfl, encTail_phase0 hp⟩)⟩]
    rfl
  · rw [exec_encEnd_room hf hm (encTail_phase1 hp hx) hr]
    simp [State.encodeEnded, State.encoded, Memory.append, okResponse, paddingByte]
  · rw [exec_encEnd_room hf hm (encTail_phase2 hp hx) hr]
    simp [State.encodeEnded, State.encoded, Memory.append, okResponse, paddingByte]

/-- Settles O17: a fault or its answer touches no other register and no byte, and what a rule appends goes in at
CURSOR. -/
theorem encoderFrame : Obligations.EncoderFrame := by
  refine ⟨fun s t x h => ?_, fun s t b h => ?_, fun s t x h => ?_⟩
  · rcases exec_fault_or_rule h with ⟨f, c, rs, rfl⟩ | hr
    · exact ⟨rfl, fun _ => rfl⟩
    · cases ruleOf_next hr
      exact ⟨rfl, fun _ => rfl⟩
  · rcases exec_fault_or_rule h with ⟨f, c, rs, rfl⟩ | hr
    · exact ⟨rfl, fun _ _ => rfl⟩
    · obtain ⟨vs, hv, ht⟩ := ruleOf_next hr
      refine ⟨by rw [encByte_appendThen_frame ht], fun a ha => ?_⟩
      rw [hv] at ha
      rw [ht]
      exact appendThen_read vs (.encByte b) s ha
  · rcases exec_fault_or_rule h with ⟨f, c, rs, rfl⟩ | hr
    · exact ⟨rfl, fun _ _ => rfl⟩
    · obtain ⟨vs, hv, ht⟩ := ruleOf_next hr
      refine ⟨by rw [encEnd_appendThen_frame ht], fun a ha => ?_⟩
      rw [hv] at ha
      rw [ht]
      exact appendThen_read vs .encEnd s ha

/-- Settles O46. -/
theorem encodeCallAppendsTheText : Obligations.EncodeCallAppendsTheText := by
  intro s bs h
  obtain ⟨rs, hlen, hrun⟩ := h.run_encodeCall bs
  refine ⟨_, hrun, ⟨h.fault, h.mode, h.hold, h.capacity⟩, Memory.bytes_foldl_append s.mem _, ?_, ?_, rfl⟩
  · simp [hlen, Nat.add_assoc]
  · simp

/-- Settles O47. -/
theorem encodeCallLength : Obligations.EncodeCallLength := by
  intro s bs h
  obtain ⟨rs, _, hrun⟩ := h.run_encodeCall bs
  refine ⟨_, hrun, ?_, ?_⟩
  · rw [← length_encodeText]
    exact Memory.length_foldl_append s.mem _
  · simp [length_encodeText]

/-- Settles O48. -/
theorem encodeCallAlphabet : Obligations.EncodeCallAlphabet := by
  intro s bs h
  obtain ⟨rs, _, hrun⟩ := h.run_encodeCall bs
  obtain ⟨body, n, htext, hbody, hn, hiff⟩ := encodeText_eq_body_padding bs
  refine ⟨_, body, n, hrun, ?_, hbody, hn, hiff⟩
  rw [State.buf, Memory.bytes_foldl_append, htext, ← List.append_assoc]
  rfl

end Sys2Proof.Machine
end

section
/-!
PROOFS. The decoder's commands (42_decoder.md): DEC.START, DEC.BYTE and DEC.END case by case, and what they leave
unchanged. Each way a command of a call can go is one move of the state: `State.decStarted`, `State.decoded`,
`State.padded`, `State.failed`, `State.drained`.
-/
namespace Sys2Proof.Machine

/-! ## The stash in bits (R89) -/

/-- The stash is a byte: a shifted value keeps its low `k` bits above zeros (R24). -/
theorem decStash_phase0_bits (v : Sym6) : (v.setWidth 8 <<< 2 : Byte) = v ++ 0#2 := by
  ext i hi
  grind

theorem decStash_phase1_bits (v : Sym6) : (v.setWidth 8 <<< 4 : Byte) = v.extractLsb' 0 4 ++ 0#4 := by
  ext i hi
  grind

theorem decStash_phase2_bits (v : Sym6) : (v.setWidth 8 <<< 6 : Byte) = v.extractLsb' 0 2 ++ 0#6 := by
  ext i hi
  grind

/-! ## Part of a decode call as one move -/

/-- The state when DEC.START has opened a call (R84). -/
def State.decStarted (s : State) : State :=
  { s with
    mark := s.mem.length, decPhase := 0, decValid := 0, decPad := 0, decStash := 0, outCount := 0,
    err := .noError, mode := .dec, hints := s.hints ++ [Config.reserveHint s.hints.length],
    responses := s.responses ++ [⟨.ok, 0, 0⟩] }

/-- The state when, from `s` on, `n` symbols have been accepted and have appended `vs`, the decoder has come to phase
`p` with this stash, and `rs` has been delivered (R89). -/
def State.decoded (s : State) (vs : List Byte) (n : Nat) (p : Fin 4) (stash : Byte) (rs : List Response) : State :=
  { s with
    mem := vs.foldl Memory.append s.mem, outCount := s.outCount + vs.length, decStash := stash,
    decValid := s.decValid + n, decPhase := p, responses := s.responses ++ rs }

/-- The state when `n` padding bytes have then been counted (R87). -/
def State.padded (s : State) (n : Nat) : State :=
  { s with decPad := s.decPad + n, responses := s.responses ++ List.replicate n (okResponse 0) }

/-- The state when a command has failed the call (R91) and left this MODE: DEC_FAILED, or IDLE where it was DEC.END. -/
def State.failed (s : State) (kind : ErrKind) (mode : Mode) : State :=
  { s with
    mem := s.mem.truncate s.mark, outCount := 0, err := kind, mode := mode,
    responses := s.responses ++ [failResponse kind] }

/-- The state when `n` bytes have been drained after a failure (R92). -/
def State.drained (s : State) (n : Nat) : State :=
  { s with responses := s.responses ++ List.replicate n (failResponse s.err) }

/-- The byte `b`, with `pad` padding bytes before it, fails the call with this kind (R86, R88). -/
def Offends (pad : Nat) (b : Byte) (kind : ErrKind) : Prop :=
  (cls b = .invalid ∧ kind = .invalidCharacter) ∨
    ((∃ v, cls b = .valid v) ∧ pad ≠ 0 ∧ kind = .misplacedPadding)

section
variable {s t : State} {b : Byte} {v : Sym6} {kind : ErrKind}

/-! ## The commands, case by case (R84 to R92) -/

/-- DEC.START opens the call (R84). -/
theorem exec_decStart (hf : s.fault = false) (hm : s.mode = .idle) :
    exec (.decStart 0) s = .next s.decStarted := by
  rw [exec_eq_gate, gate_runs _ hf (by simp [legalIn, hm]) rfl]
  rfl

/-- DEC.BYTE passes its checks in an open call, failed or not (R57). -/
theorem exec_decByte_open (hf : s.fault = false) (hm : s.mode = .dec ∨ s.mode = .decFailed) :
    exec (.decByte b) s = decByteRule b s := by
  rw [exec_eq_gate]
  exact gate_runs _ hf (by simpa [legalIn] using hm) rfl

theorem exec_decByte_dec (hf : s.fault = false) (hm : s.mode = .dec) :
    exec (.decByte b) s = decByteOpen b s := by
  rw [exec_decByte_open hf (.inl hm), decByteRule, hm]
  rfl

/-- R86 and R88. -/
theorem exec_decByte_offends (hf : s.fault = false) (hm : s.mode = .dec) (hle : s.mark ≤ s.cursor)
    (hb : Offends s.decPad b kind) : exec (.decByte b) s = .next (s.failed kind .decFailed) := by
  have hfails : decByteOpen b s = decByteFails kind s := by
    rcases hb with ⟨hb, rfl⟩ | ⟨⟨v, hb⟩, hp, rfl⟩
    · simp [decByteOpen, hb]
    · simp [decByteOpen, hb, hp]
  rcases decByteFails_cases kind s with ⟨_, e⟩ | ⟨hlt, _⟩
  · rw [exec_decByte_dec hf hm, hfails, e]
    rfl
  · exact absurd hle (Nat.not_le.2 hlt)

/-- R87. -/
theorem exec_decByte_padding (hf : s.fault = false) (hm : s.mode = .dec) (hb : cls b = .padding) :
    exec (.decByte b) s = .next (s.padded 1) := by
  rw [exec_decByte_dec hf hm, decByteOpen, hb]
  rfl

/-- R92. -/
theorem exec_decByte_drained (hf : s.fault = false) (hm : s.mode = .decFailed) :
    exec (.decByte b) s = .next (s.drained 1) := by
  rw [exec_decByte_open hf (.inr hm), decByteRule, if_pos hm]
  rfl

/-- A symbol before any padding, where the Buffer has room for the byte it appends, if it appends one (R89). -/
theorem exec_decByte_symbol (hf : s.fault = false) (hm : s.mode = .dec) (hp : s.decPad = 0) (hb : cls b = .valid v)
    (hr : decEmit v s ≠ [] → s.roomFor (decEmit v s).length) :
    exec (.decByte b) s = .next (s.decoded (decEmit v s) 1 (s.decPhase + 1) (decStashAfter v s.decPhase)
      [okResponse (decAppended s.decPhase)]) := by
  have happ : s.appends (.decByte b) (decEmit v s) (.decSymbol v) :=
    ⟨hf, .inr (.inr ⟨b, v, rfl, hm, hp, hb, rfl, rfl⟩)⟩
  have hdone : exec (.decByte b) s = .next (heldDone (.decSymbol v) (s.appended (decEmit v s))) := by
    by_cases hv : decEmit v s = []
    · rw [exec_of_appends happ, hv, appendThen_nil, State.appended_nil]
    · exact exec_of_appends_room happ (hr hv)
  rw [hdone, State.appended_frame]
  rfl

theorem exec_decByte_phase0 (hf : s.fault = false) (hm : s.mode = .dec) (hp : s.decPad = 0) (hb : cls b = .valid v)
    (hph : s.decPhase = 0) :
    exec (.decByte b) s = .next (s.decoded [] 1 1 (v.setWidth 8 <<< 2) [okResponse 0]) := by
  have hv : decEmit v s = [] := by simp only [decEmit, hph]
  rw [exec_decByte_symbol hf hm hp hb (absurd hv), hv, hph]
  rfl

theorem exec_decByte_phase1 (hf : s.fault = false) (hm : s.mode = .dec) (hp : s.decPad = 0) (hb : cls b = .valid v)
    (hph : s.decPhase = 1) (hr : s.roomFor 1) :
    exec (.decByte b) s = .next
      (s.decoded [s.decStash ||| (v.setWidth 8 >>> 4)] 1 2 (v.setWidth 8 <<< 4) [okResponse 1]) := by
  have hv : decEmit v s = [s.decStash ||| (v.setWidth 8 >>> 4)] := by simp only [decEmit, hph]
  rw [exec_decByte_symbol hf hm hp hb (fun _ => hv ▸ hr), hv, hph]
  rfl

theorem exec_decByte_phase2 (hf : s.fault = false) (hm : s.mode = .dec) (hp : s.decPad = 0) (hb : cls b = .valid v)
    (hph : s.decPhase = 2) (hr : s.roomFor 1) :
    exec (.decByte b) s = .next
      (s.decoded [s.decStash ||| (v.setWidth 8 >>> 2)] 1 3 (v.setWidth 8 <<< 6) [okResponse 1]) := by
  have hv : decEmit v s = [s.decStash ||| (v.setWidth 8 >>> 2)] := by simp only [decEmit, hph]
  rw [exec_decByte_symbol hf hm hp hb (fun _ => hv ▸ hr), hv, hph]
  rfl

theorem exec_decByte_phase3 (hf : s.fault = false) (hm : s.mode = .dec) (hp : s.decPad = 0) (hb : cls b = .valid v)
    (hph : s.decPhase = 3) (hr : s.roomFor 1) :
    exec (.decByte b) s = .next (s.decoded [s.decStash ||| v.setWidth 8] 1 0 0 [okResponse 1]) := by
  have hv : decEmit v s = [s.decStash ||| v.setWidth 8] := by simp only [decEmit, hph]
  rw [exec_decByte_symbol hf hm hp hb (fun _ => hv ▸ hr), hv, hph]
  rfl

/-- DEC.END with operand 0 passes its checks in an open call, failed or not (R57, R58). -/
theorem exec_decEnd_open (hf : s.fault = false) (hm : s.mode = .dec ∨ s.mode = .decFailed) :
    exec (.decEnd 0) s = decEndRule s := by
  rw [exec_eq_gate]
  exact gate_runs _ hf (by simpa [legalIn] using hm) rfl

/-- The end of a failed call (R90). -/
theorem exec_decEnd_failed (hf : s.fault = false) (hm : s.mode = .decFailed) :
    exec (.decEnd 0) s = .next { s.drained 1 with mode := .idle } := by
  rw [exec_decEnd_open hf (.inr hm), decEndRule, if_pos hm]
  rfl

/-- The end of a call whose total is no whole number of groups (R90, R91). -/
theorem exec_decEnd_incomplete (hf : s.fault = false) (hm : s.mode = .dec) (hn : (s.decValid + s.decPad) % 4 ≠ 0)
    (hle : s.mark ≤ s.cursor) : exec (.decEnd 0) s = .next (s.failed .incompleteGroup .idle) := by
  rw [exec_decEnd_open hf (.inl hm), decEndRule, if_neg (by simp [hm]), if_pos hn, State.decfail_of_le _ hle]
  rfl

/-- The end of a call that succeeds (R90). -/
theorem exec_decEnd_complete (hf : s.fault = false) (hm : s.mode = .dec) (hn : (s.decValid + s.decPad) % 4 = 0) :
    exec (.decEnd 0) s = .next
      { s with mode := .idle, responses := s.responses ++ [okResponse s.outCount] } := by
  rw [exec_decEnd_open hf (.inl hm), decEndRule, if_neg (by simp [hm]), if_neg fun hn' => hn' hn]
  rfl

/-! ## What the decoder leaves unchanged (R33, R35, R37) -/

/-- What DEC.BYTE can do when it answers a next state: outside a call it writes the fault registers and a response,
after a failure a response; in a call it fails, or counts padding, or appends. -/
theorem exec_decByte_cases (h : exec (.decByte b) s = .next t) :
    (¬ (s.fault = false ∧ s.mode = .dec) ∧
      ∃ f c rs, t = { s with fault := f, faultCause := c, responses := rs }) ∨
    (s.fault = false ∧ s.mode = .dec ∧ ∃ kind, Offends s.decPad b kind ∧ t = s.failed kind .decFailed) ∨
    (cls b = .padding ∧ t = s.padded 1) ∨
    (s.decPad = 0 ∧ ∃ v, cls b = .valid v ∧
      t = appendThen (decEmit v s) (.decSymbol v) (heldDone (.decSymbol v)) s) := by
  by_cases hopen : s.fault = false ∧ s.mode = .dec
  · obtain ⟨hf, hm⟩ := hopen
    rw [exec_decByte_open hf (.inl hm)] at h
    rcases ruleOf_next (i := .decByte b) h with ⟨hm', _⟩ | ⟨_, kind, hb, _, ht⟩ | ⟨_, hb, ht⟩ | ⟨_, hp, v, hb, ht⟩
    · exact absurd (hm.symm.trans hm') nofun
    · exact .inr (.inl ⟨hf, hm, kind, hb, ht⟩)
    · exact .inr (.inr (.inl ⟨hb, ht⟩))
    · exact .inr (.inr (.inr ⟨hp, v, hb, ht⟩))
  · refine .inl ⟨hopen, ?_⟩
    rcases exec_cases h with ⟨_, rfl⟩ | ⟨c, _, _, _, rfl⟩ | ⟨hv, _⟩
    · exact ⟨_, _, _, rfl⟩
    · exact ⟨_, _, _, rfl⟩
    · obtain ⟨hf, hl⟩ := legal_of_executes hv nofun
      have hm : s.mode = .decFailed := Decidable.not_not.1 fun hm => hopen ⟨hf, mode_dec_of_legal hl hm⟩
      rw [exec_decByte_drained hf hm] at h
      cases h
      exact ⟨_, _, _, rfl⟩

/-- What DEC.END can do when it answers a next state: it fails the call, or it changes no byte. -/
theorem exec_decEnd_cases {x : Byte} (h : exec (.decEnd x) s = .next t) :
    (s.fault = false ∧ s.mode = .dec ∧ x = 0 ∧ (s.decValid + s.decPad) % 4 ≠ 0 ∧
      t = s.failed .incompleteGroup .idle) ∨
    (¬ (s.fault = false ∧ s.mode = .dec ∧ x = 0 ∧ (s.decValid + s.decPad) % 4 ≠ 0) ∧
      ∃ m f c rs, t = { s with mode := m, fault := f, faultCause := c, responses := rs }) := by
  by_cases hfails : s.fault = false ∧ s.mode = .dec ∧ x = 0 ∧ (s.decValid + s.decPad) % 4 ≠ 0
  · obtain ⟨hf, hm, rfl, hn⟩ := hfails
    rw [exec_decEnd_open hf (.inl hm)] at h
    rcases ruleOf_next (i := .decEnd 0) h with ⟨hm', _⟩ | ⟨_, _, _, ht⟩ | ⟨_, hn', _⟩
    · exact absurd (hm.symm.trans hm') nofun
    · exact .inl ⟨hf, hm, rfl, hn, ht⟩
    · exact absurd hn' hn
  · refine .inr ⟨hfails, ?_⟩
    rcases exec_cases h with ⟨_, rfl⟩ | ⟨c, _, _, _, rfl⟩ | ⟨hv, hr⟩
    · exact ⟨_, _, _, _, rfl⟩
    · exact ⟨_, _, _, _, rfl⟩
    · rcases ruleOf_next hr with ⟨_, rfl⟩ | ⟨hm, hn, _, _⟩ | ⟨_, _, rfl⟩
      · exact ⟨_, _, _, _, rfl⟩
      · rcases executes_legal hv with ⟨_, e⟩ | ⟨hf, hl, hw⟩
        · cases e
        · exact absurd ⟨hf, mode_dec_of_legal hl hm, eq_of_beq hw, hn⟩ hfails
      · exact ⟨_, _, _, _, rfl⟩

/-- A failed call keeps the bytes below MARK and no others (R35, R91). -/
theorem State.read_failed (hw : s.mem.wf) (kind : ErrKind) (m : Mode) (a : Nat) :
    (a < s.mark → (s.failed kind m).mem.read a = s.mem.read a) ∧
      (s.mark ≤ a → (s.failed kind m).mem.read a = none) :=
  ⟨Memory.read_truncate_of_lt hw, Memory.read_truncate_of_le hw⟩

/-- DEC.BYTE of a symbol past its checks, whether it completes or holds (R47, R89). -/
theorem decSymbol_appendThen_frame (vs : List Byte)
    (ht : t = appendThen vs (.decSymbol v) (heldDone (.decSymbol v)) s) :
    t = { s with
      decPhase := t.decPhase, decValid := t.decValid, decStash := t.decStash, outCount := t.outCount, hold := t.hold,
      mem := t.mem, responses := t.responses } := by
  rcases appendThen_cases vs (.decSymbol v) (heldDone (.decSymbol v)) s with e | ⟨pre, x, left, _, _, e⟩ <;>
    rw [e, State.appended_frame] at ht <;> rw [ht]
  rfl

end

/-! ## The statements about single commands -/

/-- Settles O19. -/
theorem decStartOpensADecodeCall : Obligations.DecStartOpensADecodeCall := by
  intro s hf
  refine ⟨fun hm => ?_, fun x hm => callBracketingIsEnforced.1 s (.decStart x) hf hm,
    fun x hm hx => exec_reservedOperand hf (beq_iff_eq.2 hm) rfl hx⟩
  rw [exec_decStart hf hm, State.decStarted, State.buf, Memory.length_bytes]

/-- Settles O20. -/
theorem decByteInvalidFailsAndRollsBack : Obligations.DecByteInvalidFailsAndRollsBack :=
  fun _ _ hf hm hle hb => exec_decByte_offends hf hm hle (.inl ⟨hb, rfl⟩)

/-- Settles O21. -/
theorem decBytePaddingIsCounted : Obligations.DecBytePaddingIsCounted :=
  fun _ _ hf hm hb => exec_decByte_padding hf hm hb

/-- Settles O22. -/
theorem decByteAfterPaddingFailsAndRollsBack : Obligations.DecByteAfterPaddingFailsAndRollsBack :=
  fun _ _ v hf hm hle hb hp => exec_decByte_offends hf hm hle (.inr ⟨⟨v, hb⟩, hp, rfl⟩)

/-- Settles O23: the stash the rule writes has the stated bits. -/
theorem decByteValidByPhase : Obligations.DecByteValidByPhase := by
  intro s b v hf hm hb hp
  refine ⟨fun hph => ?_, fun hph hr => ?_, fun hph hr => ?_, fun hph hr => ?_⟩
  · rw [exec_decByte_phase0 hf hm hp hb hph, decStash_phase0_bits]
    rfl
  · rw [exec_decByte_phase1 hf hm hp hb hph hr, decStash_phase1_bits]
    rfl
  · rw [exec_decByte_phase2 hf hm hp hb hph hr, decStash_phase2_bits]
    rfl
  · exact exec_decByte_phase3 hf hm hp hb hph hr

/-- Settles O24. -/
theorem decByteIsDrainedAfterAFailure : Obligations.DecByteIsDrainedAfterAFailure :=
  fun _ _ hf hm => exec_decByte_drained hf hm

/-- Settles O25: the MODE and the total decide the answer, and the checks what is raised. -/
theorem decEndChecksTheTotalAndCloses : Obligations.DecEndChecksTheTotalAndCloses := by
  intro s hf
  refine ⟨exec_decEnd_failed hf, exec_decEnd_incomplete hf, exec_decEnd_complete hf,
    fun x hm hm' => callBracketingIsEnforced.1 s (.decEnd x) hf ⟨hm, hm'⟩, fun x hm hx => ?_⟩
  exact exec_reservedOperand hf (by simpa [legalIn] using hm) rfl hx

/-- Settles O26: a fault or its answer touches no other register and no byte, a failure cuts the Buffer at MARK, and a
symbol's byte goes in at CURSOR. -/
theorem decoderFrame : Obligations.DecoderFrame := by
  refine ⟨fun s t x h => ?_, fun s t b h => ?_, fun s t x h => ?_⟩
  · rcases exec_fault_or_rule h with ⟨f, c, rs, rfl⟩ | hr
    · exact ⟨rfl, fun _ => rfl⟩
    · cases ruleOf_next hr
      exact ⟨rfl, fun _ => rfl⟩
  · rcases exec_decByte_cases h with ⟨hopen, f, c, rs, rfl⟩ | ⟨hf, hm, kind, hb, rfl⟩ | ⟨hb, rfl⟩ | ⟨hp, v, hb, ht⟩
    · rw [if_neg fun ⟨hf, hm, _⟩ => hopen ⟨hf, hm⟩]
      exact ⟨rfl, fun _ _ => rfl⟩
    · have hfails : cls b = .invalid ∨ (cls b ≠ .padding ∧ s.decPad ≠ 0) := by
        rcases hb with ⟨hb, _⟩ | ⟨⟨v, hb⟩, hp, _⟩
        · exact .inl hb
        · exact .inr ⟨by simp [hb], hp⟩
      rw [if_pos ⟨hf, hm, hfails⟩]
      exact ⟨rfl, fun hw a => State.read_failed hw kind .decFailed a⟩
    · rw [if_neg (by simp [hb])]
      exact ⟨rfl, fun _ _ => rfl⟩
    · rw [if_neg (by simp [hb, hp])]
      refine ⟨by rw [decSymbol_appendThen_frame _ ht], fun a ha => ?_⟩
      rw [hb] at ha
      rw [ht]
      exact appendThen_read (decEmit v s) (.decSymbol v) s ha
  · rcases exec_decEnd_cases h with ⟨hf, hm, hx, hn, rfl⟩ | ⟨hfails, m, f, c, rs, rfl⟩
    · rw [if_pos ⟨hf, hm, hx, hn⟩]
      exact ⟨rfl, fun hw a => State.read_failed hw .incompleteGroup .idle a⟩
    · rw [if_neg hfails]
      exact ⟨rfl, fun _ => rfl⟩

end Sys2Proof.Machine
end

section
/-!
PROOFS. How a decode call runs (42_decoder.md). A text is symbols and then padding (`cleanText`), and after them nothing
or the first byte that offends. Moves of the decoder in a row are one move, so a run of symbols is the induction over
groups of four that `decodeSymbols` itself makes, and `Ready.run_decodeCall` says how a call over each shape of text
ends.
-/
namespace Sys2Proof.Machine

/-! ## The bytes of a group (R89, R94, R96) -/

/-- What a group's first two symbols append. -/
def firstByte (v w : Sym6) : Byte := v ++ w.extractLsb' 4 2

/-- What its third symbol appends, with what the first byte left of the second. -/
def secondByte (w x : Sym6) : Byte := w.extractLsb' 0 4 ++ x.extractLsb' 2 4

/-- What its fourth symbol appends, with what the second byte left of the third. -/
def thirdByte (x y : Sym6) : Byte := x.extractLsb' 0 2 ++ y

theorem stash_or_eq_firstByte (v w : Sym6) : v.setWidth 8 <<< 2 ||| (w.setWidth 8 >>> 4) = firstByte v w := by
  rw [firstByte]
  ext i hi
  grind

theorem stash_or_eq_secondByte (w x : Sym6) : w.setWidth 8 <<< 4 ||| (x.setWidth 8 >>> 2) = secondByte w x := by
  rw [secondByte]
  ext i hi
  grind

theorem stash_or_eq_thirdByte (x y : Sym6) : x.setWidth 8 <<< 6 ||| y.setWidth 8 = thirdByte x y := by
  rw [thirdByte]
  ext i hi
  grind

theorem decodeSymbols_two (v w : Sym6) : decodeSymbols [v, w] = [firstByte v w] := by
  have hfirst : (v ++ w).extractLsb' 4 8 = firstByte v w := by rw [firstByte]; ext i hi; grind
  simp only [decodeSymbols, hfirst]

theorem decodeSymbols_three (v w x : Sym6) : decodeSymbols [v, w, x] = [firstByte v w, secondByte w x] := by
  have hfirst : (v ++ w ++ x).extractLsb' 10 8 = firstByte v w := by rw [firstByte]; ext i hi; grind
  have hsecond : (v ++ w ++ x).extractLsb' 2 8 = secondByte w x := by rw [secondByte]; ext i hi; grind
  simp only [decodeSymbols, hfirst, hsecond]

theorem decodeSymbols_group (v w x y : Sym6) (rest : List Sym6) :
    decodeSymbols (v :: w :: x :: y :: rest) =
      [firstByte v w, secondByte w x, thirdByte x y] ++ decodeSymbols rest := by
  have hfirst : (v ++ w ++ x ++ y).extractLsb' 16 8 = firstByte v w := by rw [firstByte]; ext i hi; grind
  have hsecond : (v ++ w ++ x ++ y).extractLsb' 8 8 = secondByte w x := by rw [secondByte]; ext i hi; grind
  have hthird : (v ++ w ++ x ++ y).extractLsb' 0 8 = thirdByte x y := by rw [thirdByte]; ext i hi; grind
  simp only [decodeSymbols, hfirst, hsecond, hthird, List.cons_append, List.nil_append]

/-- The count of R95. -/
theorem length_decodeSymbols (vs : List Sym6) :
    (decodeSymbols vs).length = 3 * (vs.length / 4) + (vs.length % 4 - 1) := by
  induction vs using decodeSymbols.induct with
  | case1 => rfl
  | case2 | case3 | case4 => simp [decodeSymbols]
  | case5 v w x y rest ih =>
    rw [decodeSymbols_group, List.length_append, ih]
    simp only [List.length_cons, List.length_nil]
    omega

/-- Whole groups decode on their own. -/
theorem decodeSymbols_append {vs : List Sym6} (h : vs.length % 4 = 0) (ws : List Sym6) :
    decodeSymbols (vs ++ ws) = decodeSymbols vs ++ decodeSymbols ws := by
  induction vs using decodeSymbols.induct with
  | case1 => rfl
  | case2 | case3 | case4 => simp at h
  | case5 v w x y rest ih =>
    simp only [List.length_cons] at h
    simp only [List.cons_append, decodeSymbols_group, ih (by omega)]
    rfl

/-! ## The shape of a text (R93, R94) -/

/-- Symbols and then padding: the texts in which no byte offends. -/
def cleanText (vs : List Sym6) (n : Nat) : List Byte := vs.map sym ++ List.replicate n paddingByte

@[simp] theorem length_cleanText (vs : List Sym6) (n : Nat) : (cleanText vs n).length = vs.length + n := by
  simp [cleanText]

/-- A text is clean, or it is a clean one and then a byte that offends there. -/
theorem text_cases (text : List Byte) :
    (∃ vs n, text = cleanText vs n) ∨
      ∃ vs n b bs kind, text = cleanText vs n ++ b :: bs ∧ Offends n b kind := by
  induction text with
  | nil => exact .inl ⟨[], 0, rfl⟩
  | cons b bs ih =>
    cases hb : cls b with
    | invalid => exact .inr ⟨[], 0, b, bs, _, rfl, .inl ⟨hb, rfl⟩⟩
    | valid v =>
      obtain rfl := sym_of_cls_eq_valid hb
      rcases ih with ⟨vs, n, rfl⟩ | ⟨vs, n, c, cs, kind, rfl, hc⟩
      · exact .inl ⟨v :: vs, n, rfl⟩
      · exact .inr ⟨v :: vs, n, c, cs, kind, rfl, hc⟩
    | padding =>
      obtain rfl := cls_eq_padding_iff.1 hb
      rcases ih with ⟨vs, n, rfl⟩ | ⟨vs, n, c, cs, kind, rfl, hc⟩
      · cases vs with
        | nil => exact .inl ⟨[], n + 1, rfl⟩
        | cons v vs => exact .inr ⟨[], 1, sym v, cleanText vs n, _, rfl, .inr ⟨⟨v, cls_sym v⟩, Nat.one_ne_zero, rfl⟩⟩
      · cases vs with
        | nil => exact .inr ⟨[], n + 1, c, cs, kind, rfl, hc.imp_right fun ⟨hv, _, hk⟩ => ⟨hv, n.succ_ne_zero, hk⟩⟩
        | cons v vs =>
          exact .inr ⟨[], 1, sym v, cleanText vs n ++ c :: cs, _, rfl, .inr ⟨⟨v, cls_sym v⟩, Nat.one_ne_zero, rfl⟩⟩

/-- Alphabet bytes are a row of symbols. -/
theorem exists_eq_map_sym {p : List Byte} (hp : ∀ b ∈ p, b ∈ alphabet) : ∃ vs : List Sym6, p = vs.map sym := by
  induction p with
  | nil => exact ⟨[], rfl⟩
  | cons b p ih =>
    obtain ⟨v, rfl⟩ := mem_alphabet_iff.1 (hp b List.mem_cons_self)
    obtain ⟨vs, rfl⟩ := ih fun c hc => hp c (List.mem_cons_of_mem _ hc)
    exact ⟨v :: vs, rfl⟩

theorem symbolsOf_cons_sym (v : Sym6) (text : List Byte) : symbolsOf (sym v :: text) = v :: symbolsOf text :=
  List.filterMap_cons_some (by rw [cls_sym])

theorem symbolsOf_replicate (n : Nat) : symbolsOf (List.replicate n paddingByte) = [] :=
  List.filterMap_replicate_of_none rfl

theorem symbolsOf_cleanText (vs : List Sym6) (n : Nat) : symbolsOf (cleanText vs n) = vs := by
  induction vs with
  | nil => exact symbolsOf_replicate n
  | cons v vs ih => exact (symbolsOf_cons_sym v (cleanText vs n)).trans (congrArg (v :: ·) ih)

/-- The bytes R94 names are a clean text. -/
theorem append_eq_cleanText {p q : List Byte} (hp : ∀ b ∈ p, b ∈ alphabet) (hq : ∀ b ∈ q, b = 0x3D) :
    p ++ q = cleanText (symbolsOf p) q.length := by
  obtain ⟨syms, rfl⟩ := exists_eq_map_sym hp
  have hsyms : symbolsOf (syms.map sym) = syms := by simpa [cleanText] using symbolsOf_cleanText syms 0
  rw [hsyms]
  exact congrArg (syms.map sym ++ ·) (List.eq_replicate_of_mem hq)

theorem firstOffence_replicate (padded : Bool) (n : Nat) (rest : List Byte) :
    firstOffence padded (List.replicate n paddingByte ++ rest) = firstOffence (padded || n != 0) rest := by
  induction n generalizing padded with
  | zero => simp
  | succ n ih =>
    have hpad : cls paddingByte = .padding := rfl
    simp [List.replicate_succ, firstOffence, hpad, ih]

theorem firstOffence_cleanText (vs : List Sym6) (n : Nat) (rest : List Byte) :
    firstOffence false (cleanText vs n ++ rest) = firstOffence (n != 0) rest := by
  induction vs with
  | nil => exact firstOffence_replicate false n rest
  | cons v vs ih =>
    rw [← ih]
    simp [cleanText, firstOffence, cls_sym]

theorem callFailure_cleanText (vs : List Sym6) (n : Nat) :
    callFailure (cleanText vs n) = if (vs.length + n) % 4 = 0 then none else some .incompleteGroup := by
  have hclean : firstOffence false (cleanText vs n) = none := by
    simpa [firstOffence] using firstOffence_cleanText vs n []
  simp only [callFailure, hclean, length_cleanText]

theorem callFailure_offends {n : Nat} {b : Byte} {kind : ErrKind} (vs : List Sym6) (bs : List Byte)
    (hb : Offends n b kind) : callFailure (cleanText vs n ++ b :: bs) = some kind := by
  have hfirst : firstOffence false (cleanText vs n ++ b :: bs) = some kind := by
    rw [firstOffence_cleanText]
    rcases hb with ⟨hb, rfl⟩ | ⟨⟨v, hb⟩, hn, rfl⟩
    · simp [firstOffence, hb]
    · simp [firstOffence, hb, hn]
  simp only [callFailure, hfirst]

/-- The texts that decode, R94. -/
theorem callFailure_eq_none_iff {text : List Byte} :
    callFailure text = none ↔ text.length % 4 = 0 ∧ ∃ vs n, text = cleanText vs n := by
  rcases text_cases text with ⟨vs, n, rfl⟩ | ⟨vs, n, b, bs, kind, rfl, hb⟩
  · have hclean : ∃ ws m, cleanText vs n = cleanText ws m := ⟨vs, n, rfl⟩
    simp [callFailure_cleanText, hclean]
  · rw [callFailure_offends vs bs hb]
    refine ⟨nofun, fun ⟨hlen, ws, m, htext⟩ => ?_⟩
    rw [← callFailure_offends vs bs hb, htext, callFailure_cleanText, ← length_cleanText, ← htext, if_pos hlen]

/-! ## A call as its moves -/

/-- The answers to the symbols of a call: the first of each group appends nothing (R89). -/
def symbolAnswers : Nat → List Response
  | 0 => []
  | 1 => [okResponse 0]
  | 2 => [okResponse 0, okResponse 1]
  | 3 => [okResponse 0, okResponse 1, okResponse 1]
  | n + 4 => [okResponse 0, okResponse 1, okResponse 1, okResponse 1] ++ symbolAnswers n

@[simp] theorem length_symbolAnswers (n : Nat) : (symbolAnswers n).length = n := by
  induction n using symbolAnswers.induct with
  | case1 | case2 | case3 | case4 => rfl
  | case5 n ih => simp [symbolAnswers, ih]

theorem symbolAnswers_ok (n : Nat) : ∀ r ∈ symbolAnswers n, r.res = .ok := by
  induction n using symbolAnswers.induct with
  | case1 | case2 | case3 | case4 => simp [symbolAnswers, okResponse]
  | case5 n ih => simpa [symbolAnswers, okResponse] using ih

/-- The answers to the bytes of a clean text. -/
def cleanAnswers (m n : Nat) : List Response := symbolAnswers m ++ List.replicate n (okResponse 0)

@[simp] theorem length_cleanAnswers (m n : Nat) : (cleanAnswers m n).length = m + n := by
  simp [cleanAnswers]

theorem cleanAnswers_ok (m n : Nat) : ∀ r ∈ cleanAnswers m n, r.res = .ok := by
  intro r h
  rcases List.mem_append.1 h with h | h
  · exact symbolAnswers_ok m r h
  · rw [List.eq_of_mem_replicate h]
    rfl

section
variable {s t u : State} {i : Instr} {is : List Instr} {vs ws : List Byte} {rs qs : List Response} {m n : Nat}
  {p q : Fin 4} {x y : Byte} {kind : ErrKind} {last : Response}

theorem State.decoded_decoded :
    (s.decoded vs m p x rs).decoded ws n q y qs = s.decoded (vs ++ ws) (m + n) q y (rs ++ qs) := by
  simp [State.decoded, List.foldl_append, Nat.add_assoc]

/-- The last command of a run. -/
theorem runCommands_last (hn : s.hold = none) (hc : s.capacity = none) (h : exec i s = .next u)
    (hold : u.hold = s.hold) (capacity : u.capacity = s.capacity) (script : u.script = s.script) :
    runCommands [i] s = .next u :=
  runCommands_cons_of_exec hn hc h hold capacity script

/-- A decode call is open and has not failed, on a Buffer that always accepts, and no command is held. -/
structure DecOpen (s : State) : Prop where
  fault : s.fault = false
  mode : s.mode = .dec
  hold : s.hold = none
  capacity : s.capacity = none

theorem DecOpen.decoded (ho : DecOpen s) : DecOpen (s.decoded vs n p x rs) :=
  ⟨ho.fault, ho.mode, ho.hold, ho.capacity⟩

theorem DecOpen.padded (ho : DecOpen s) (n : Nat) : DecOpen (s.padded n) := ⟨ho.fault, ho.mode, ho.hold, ho.capacity⟩

theorem DecOpen.roomFor (ho : DecOpen s) (n : Nat) : s.roomFor n := State.roomFor_of_unlimited ho.capacity n

/-! ### Symbols (R89) -/

theorem DecOpen.run_cons (ho : DecOpen s) (h : exec i s = .next (s.decoded vs n p x rs)) :
    runCommands (i :: is) s = runCommands is (s.decoded vs n p x rs) :=
  runCommands_cons_of_exec ho.hold ho.capacity h rfl rfl rfl

/-- The first symbol of a group. -/
theorem DecOpen.run_first (ho : DecOpen s) (hp : s.decPad = 0) (hph : s.decPhase = 0) (a : Sym6) :
    runCommands (.decByte (sym a) :: is) s =
      runCommands is (s.decoded [] 1 1 (a.setWidth 8 <<< 2) [okResponse 0]) :=
  ho.run_cons (exec_decByte_phase0 ho.fault ho.mode hp (cls_sym a) hph)

/-- The first two symbols of a group. -/
theorem DecOpen.run_firstTwo (ho : DecOpen s) (hp : s.decPad = 0) (hph : s.decPhase = 0) (a b : Sym6) :
    runCommands (.decByte (sym a) :: .decByte (sym b) :: is) s = runCommands is
      (s.decoded [firstByte a b] 2 2 (b.setWidth 8 <<< 4) [okResponse 0, okResponse 1]) := by
  rw [ho.run_first hp hph, ho.decoded.run_cons
    (exec_decByte_phase1 ho.fault ho.mode hp (cls_sym b) rfl (ho.decoded.roomFor 1)), State.decoded_decoded,
    ← stash_or_eq_firstByte]
  rfl

/-- The first three symbols of a group. -/
theorem DecOpen.run_firstThree (ho : DecOpen s) (hp : s.decPad = 0) (hph : s.decPhase = 0) (a b c : Sym6) :
    runCommands (.decByte (sym a) :: .decByte (sym b) :: .decByte (sym c) :: is) s = runCommands is
      (s.decoded [firstByte a b, secondByte b c] 3 3 (c.setWidth 8 <<< 6)
        [okResponse 0, okResponse 1, okResponse 1]) := by
  rw [ho.run_firstTwo hp hph, ho.decoded.run_cons
    (exec_decByte_phase2 ho.fault ho.mode hp (cls_sym c) rfl (ho.decoded.roomFor 1)), State.decoded_decoded,
    ← stash_or_eq_secondByte]
  rfl

/-- A whole group. -/
theorem DecOpen.run_group (ho : DecOpen s) (hp : s.decPad = 0) (hph : s.decPhase = 0) (a b c d : Sym6) :
    runCommands (.decByte (sym a) :: .decByte (sym b) :: .decByte (sym c) :: .decByte (sym d) :: is) s =
      runCommands is (s.decoded [firstByte a b, secondByte b c, thirdByte c d] 4 0 0
        [okResponse 0, okResponse 1, okResponse 1, okResponse 1]) := by
  rw [ho.run_firstThree hp hph, ho.decoded.run_cons
    (exec_decByte_phase3 ho.fault ho.mode hp (cls_sym d) rfl (ho.decoded.roomFor 1)), State.decoded_decoded,
    ← stash_or_eq_thirdByte]
  rfl

/-- From a group boundary, symbols append what `decodeSymbols` makes of them. -/
theorem DecOpen.run_symbols (ho : DecOpen s) (hp : s.decPad = 0) (hph : s.decPhase = 0) (syms : List Sym6) :
    ∃ p x, runCommands (decStr (syms.map sym) ++ is) s = runCommands is
      (s.decoded (decodeSymbols syms) syms.length p x (symbolAnswers syms.length)) := by
  induction syms using decodeSymbols.induct generalizing s with
  | case1 => exact ⟨s.decPhase, s.decStash, by simp [decStr, State.decoded, decodeSymbols, symbolAnswers]⟩
  | case2 a => exact ⟨_, _, ho.run_first hp hph a⟩
  | case3 a b =>
    rw [decodeSymbols_two]
    exact ⟨_, _, ho.run_firstTwo hp hph a b⟩
  | case4 a b c =>
    rw [decodeSymbols_three]
    exact ⟨_, _, ho.run_firstThree hp hph a b c⟩
  | case5 a b c d rest ih =>
    obtain ⟨p, x, hrun⟩ := ih (ho.decoded (vs := [firstByte a b, secondByte b c, thirdByte c d]) (n := 4) (p := 0)
      (x := 0) (rs := [okResponse 0, okResponse 1, okResponse 1, okResponse 1])) hp rfl
    refine ⟨p, x, (ho.run_group hp hph a b c d).trans ?_⟩
    rw [decodeSymbols_group]
    rw [State.decoded_decoded, Nat.add_comm] at hrun
    exact hrun

/-! ### Padding, and the drain (R87, R92) -/

theorem State.padded_padded (s : State) (m n : Nat) : (s.padded m).padded n = s.padded (m + n) := by
  simp [State.padded, Nat.add_assoc]

theorem DecOpen.run_padding (ho : DecOpen s) (n : Nat) :
    runCommands (decStr (List.replicate n paddingByte) ++ is) s = runCommands is (s.padded n) := by
  induction n generalizing s with
  | zero => simp [decStr, State.padded]
  | succ n ih =>
    have hfirst : runCommands (.decByte paddingByte :: (decStr (List.replicate n paddingByte) ++ is)) s =
        runCommands (decStr (List.replicate n paddingByte) ++ is) (s.padded 1) :=
      runCommands_cons_of_exec ho.hold ho.capacity (exec_decByte_padding ho.fault ho.mode rfl) rfl rfl rfl
    calc runCommands (decStr (List.replicate (n + 1) paddingByte) ++ is) s
      _ = runCommands (decStr (List.replicate n paddingByte) ++ is) (s.padded 1) := hfirst
      _ = runCommands is ((s.padded 1).padded n) := ih (ho.padded 1)
      _ = runCommands is (s.padded (n + 1)) := by rw [State.padded_padded, Nat.add_comm]

theorem State.drained_drained (s : State) (m n : Nat) : (s.drained m).drained n = s.drained (m + n) := by
  simp [State.drained]

/-- The rest of a failed call: every byte is drained, and DEC.END closes the call. -/
theorem run_decStr_decEnd_of_failed (hf : s.fault = false) (hm : s.mode = .decFailed) (hn : s.hold = none)
    (hc : s.capacity = none) (bs : List Byte) :
    runCommands (decStr bs ++ [.decEnd 0]) s = .next { s.drained (bs.length + 1) with mode := .idle } := by
  induction bs generalizing s with
  | nil => exact runCommands_last hn hc (exec_decEnd_failed hf hm) rfl rfl rfl
  | cons b bs ih =>
    have hfirst : runCommands (.decByte b :: (decStr bs ++ [.decEnd 0])) s =
        runCommands (decStr bs ++ [.decEnd 0]) (s.drained 1) :=
      runCommands_cons_of_exec hn hc (exec_decByte_drained hf hm) rfl rfl rfl
    refine hfirst.trans ((ih (s := s.drained 1) hf hm hn hc).trans ?_)
    rw [State.drained_drained, Nat.add_comm 1]
    rfl

/-! ## A whole call (R83, R93) -/

/-- What DEC.START and the bytes of a clean text leave of the state `s` before them. -/
structure Scanned (s : State) (syms : List Sym6) (n : Nat) (u : State) : Prop extends DecOpen u where
  mem : u.mem = (decodeSymbols syms).foldl Memory.append s.mem
  mark : u.mark = s.mem.length
  total : u.decValid + u.decPad = syms.length + n
  pad : u.decPad = n
  outCount : u.outCount = (decodeSymbols syms).length
  err : u.err = .noError
  responses : u.responses = s.responses ++ okResponse 0 :: cleanAnswers syms.length n

/-- A call's DEC.START and the clean text its bytes begin with. -/
theorem Ready.run_cleanText (h : Ready s) (syms : List Sym6) (n : Nat) (bs : List Byte) :
    ∃ u, Scanned s syms n u ∧
      runCommands (decodeCall (cleanText syms n ++ bs)) s = runCommands (decStr bs ++ [.decEnd 0]) u := by
  have hstart := runCommands_cons_of_exec (is := decStr (cleanText syms n ++ bs) ++ [.decEnd 0]) h.hold h.capacity
    (exec_decStart h.fault h.mode) rfl rfl rfl
  have ho : DecOpen s.decStarted := ⟨h.fault, rfl, h.hold, h.capacity⟩
  obtain ⟨p, x, hsyms⟩ := ho.run_symbols
    (is := decStr (List.replicate n paddingByte) ++ (decStr bs ++ [.decEnd 0])) rfl rfl syms
  rw [ho.decoded.run_padding] at hsyms
  refine ⟨_, ⟨ho.decoded.padded n, rfl, rfl, ?_, ?_, ?_, rfl, ?_⟩, (hstart.trans ?_).trans hsyms⟩
  · simp [State.padded, State.decoded, State.decStarted]
  · simp [State.padded, State.decoded, State.decStarted]
  · simp [State.padded, State.decoded, State.decStarted]
  · simp [State.padded, State.decoded, State.decStarted, cleanAnswers, okResponse]
  · simp [cleanText, decStr]

/-- A call has ended: from `s` on it has appended `vs`, ERR is `kind`, its bytes have been answered `rs`, and DEC.END
`last`. -/
structure CallEnds (s : State) (vs : List Byte) (kind : ErrKind) (rs : List Response) (last : Response) (t : State) :
    Prop where
  ready : Ready t
  mem : t.mem = vs.foldl Memory.append s.mem
  err : t.err = kind
  responses : t.responses = s.responses ++ okResponse 0 :: (rs ++ [last])

theorem CallEnds.buf (ht : CallEnds s vs kind rs last t) : t.buf = s.buf ++ vs := by
  rw [State.buf, ht.mem, Memory.bytes_foldl_append]
  rfl

theorem CallEnds.cursor (ht : CallEnds s vs kind rs last t) : t.cursor = s.cursor + vs.length := by
  rw [State.cursor, ht.mem, Memory.length_foldl_append]
  rfl

theorem CallEnds.length_responses (ht : CallEnds s vs kind rs last t) :
    t.responses.length = s.responses.length + rs.length + 2 := by
  simp [ht.responses, Nat.add_assoc]

theorem CallEnds.getLast? (ht : CallEnds s vs kind rs last t) : t.responses.getLast? = some last := by
  rw [ht.responses, ← List.cons_append, ← List.append_assoc, List.getLast?_concat]

/-- The answer to byte `k`. -/
theorem CallEnds.answer (ht : CallEnds s vs kind rs last t) {k : Nat} (hk : k < rs.length) :
    t.responses[s.responses.length + 1 + k]? = rs[k]? := by
  rw [ht.responses, Nat.add_assoc, List.getElem?_append_right (Nat.le_add_right _ _), Nat.add_sub_cancel_left,
    Nat.add_comm, List.getElem?_cons_succ, List.getElem?_append_left hk]

/-- The bytes of a clean text are answered OK. -/
theorem CallEnds.answer_ok (ht : CallEnds s vs kind (cleanAnswers m n ++ rs) last t) {k : Nat} (hk : k < m + n) :
    ∃ r, t.responses[s.responses.length + 1 + k]? = some r ∧ r.res = .ok := by
  have hlen : k < (cleanAnswers m n).length := by rwa [length_cleanAnswers]
  refine ⟨(cleanAnswers m n)[k], ?_, cleanAnswers_ok m n _ (List.getElem_mem hlen)⟩
  rw [ht.answer (by rw [List.length_append]; omega), List.getElem?_append_left hlen, List.getElem?_eq_getElem hlen]

/-- Appends leave the bytes before them. -/
theorem Memory.take_foldl_append (vs : List Byte) {m : Memory} {k : Nat} (h : k ≤ m.length) :
    List.take k (vs.foldl Memory.append m) = List.take k m := by
  induction vs generalizing m with
  | nil => rfl
  | cons v vs ih =>
    rw [List.foldl_cons, ih (by rw [Memory.length_append]; omega), Memory.append, List.take_append_of_le_length h]

/-- A rollback undoes the appends since its mark (R35, R91). -/
theorem Memory.truncate_foldl_append (m : Memory) (vs : List Byte) :
    Memory.truncate (vs.foldl Memory.append m) m.length = m :=
  (Memory.take_foldl_append vs (Nat.le_refl _)).trans List.take_length

theorem Scanned.mark_le {syms : List Sym6} (hu : Scanned s syms n u) : u.mark ≤ u.cursor := by
  rw [hu.mark, State.cursor, hu.mem, Memory.length_foldl_append]
  omega

theorem Scanned.truncate {syms : List Sym6} (hu : Scanned s syms n u) : u.mem.truncate u.mark = s.mem := by
  rw [hu.mem, hu.mark, Memory.truncate_foldl_append]

/-- A clean text of whole groups (R90, R94). -/
theorem Ready.run_complete (h : Ready s) (syms : List Sym6) (n : Nat) (h4 : (syms.length + n) % 4 = 0) :
    ∃ t, runCommands (decodeCall (cleanText syms n)) s = .next t ∧
      CallEnds s (decodeSymbols syms) .noError (cleanAnswers syms.length n)
        (okResponse (decodeSymbols syms).length) t := by
  obtain ⟨u, hu, hrun⟩ := h.run_cleanText syms n []
  rw [List.append_nil] at hrun
  have hend := exec_decEnd_complete hu.fault hu.mode (hu.total ▸ h4)
  refine ⟨_, hrun.trans (runCommands_last hu.hold hu.capacity hend rfl rfl rfl),
    ⟨hu.fault, rfl, hu.hold, hu.capacity⟩, hu.mem, hu.err, ?_⟩
  simp [hu.responses, hu.outCount]

/-- A clean text that is no whole number of groups (R90). -/
theorem Ready.run_incomplete (h : Ready s) (syms : List Sym6) (n : Nat) (h4 : (syms.length + n) % 4 ≠ 0) :
    ∃ t, runCommands (decodeCall (cleanText syms n)) s = .next t ∧
      CallEnds s [] .incompleteGroup (cleanAnswers syms.length n) (failResponse .incompleteGroup) t := by
  obtain ⟨u, hu, hrun⟩ := h.run_cleanText syms n []
  rw [List.append_nil] at hrun
  have hend := exec_decEnd_incomplete hu.fault hu.mode (hu.total ▸ h4) hu.mark_le
  refine ⟨_, hrun.trans (runCommands_last hu.hold hu.capacity hend rfl rfl rfl),
    ⟨hu.fault, rfl, hu.hold, hu.capacity⟩, hu.truncate, rfl, ?_⟩
  simp [State.failed, hu.responses]

/-- A text with an offending byte: it fails the call, and the rest is drained (R86, R88, R92). -/
theorem Ready.run_offends (h : Ready s) (syms : List Sym6) {n : Nat} {b : Byte} (bs : List Byte)
    (hb : Offends n b kind) :
    ∃ t, runCommands (decodeCall (cleanText syms n ++ b :: bs)) s = .next t ∧
      CallEnds s [] kind (cleanAnswers syms.length n ++ List.replicate (bs.length + 1) (failResponse kind))
        (failResponse kind) t := by
  obtain ⟨u, hu, hrun⟩ := h.run_cleanText syms n (b :: bs)
  have hfail : runCommands (decStr (b :: bs) ++ [.decEnd 0]) u =
      runCommands (decStr bs ++ [.decEnd 0]) (u.failed kind .decFailed) :=
    runCommands_cons_of_exec hu.hold hu.capacity
      (exec_decByte_offends hu.fault hu.mode hu.mark_le (hu.pad ▸ hb)) rfl rfl rfl
  have hdrain := run_decStr_decEnd_of_failed (s := u.failed kind .decFailed) hu.fault rfl hu.hold hu.capacity bs
  refine ⟨_, hrun.trans (hfail.trans hdrain), ⟨hu.fault, rfl, hu.hold, hu.capacity⟩, hu.truncate, rfl, ?_⟩
  simp [State.drained, State.failed, hu.responses, ← List.replicate_succ, ← List.replicate_succ']

/-- How a call over any text ends. -/
theorem Ready.run_decodeCall (h : Ready s) (text : List Byte) :
    ∃ t, runCommands (decodeCall text) s = .next t ∧
      ((∃ syms n, text = cleanText syms n ∧ (syms.length + n) % 4 = 0 ∧
          CallEnds s (decodeSymbols syms) .noError (cleanAnswers syms.length n)
            (okResponse (decodeSymbols syms).length) t) ∨
        (∃ syms n, text = cleanText syms n ∧ (syms.length + n) % 4 ≠ 0 ∧
          CallEnds s [] .incompleteGroup (cleanAnswers syms.length n) (failResponse .incompleteGroup) t) ∨
        (∃ syms n b bs kind, text = cleanText syms n ++ b :: bs ∧ Offends n b kind ∧
          CallEnds s [] kind
            (cleanAnswers syms.length n ++ List.replicate (bs.length + 1) (failResponse kind))
            (failResponse kind) t)) := by
  rcases text_cases text with ⟨syms, n, rfl⟩ | ⟨syms, n, b, bs, kind, rfl, hb⟩
  · by_cases h4 : (syms.length + n) % 4 = 0
    · obtain ⟨t, hrun, ht⟩ := h.run_complete syms n h4
      exact ⟨t, hrun, .inl ⟨syms, n, rfl, h4, ht⟩⟩
    · obtain ⟨t, hrun, ht⟩ := h.run_incomplete syms n h4
      exact ⟨t, hrun, .inr (.inl ⟨syms, n, rfl, h4, ht⟩)⟩
  · obtain ⟨t, hrun, ht⟩ := h.run_offends syms bs hb
    exact ⟨t, hrun, .inr (.inr ⟨syms, n, b, bs, kind, rfl, hb, ht⟩)⟩

end

end Sys2Proof.Machine
end

section
/-!
PROOFS. Whole decode calls (42_decoder.md): the result, the first offending byte, the count, the round trip with an
encode call, and the bits that are dropped. The answers are read off `Ready.run_decodeCall`.
-/
namespace Sys2Proof.Machine

/-! ## Where a byte offends (R93) -/

/-- The byte at `i` is Invalid, or a symbol with padding somewhere before it. -/
def OffendsAt (text : List Byte) (i : Nat) : Prop :=
  ∃ b, text[i]? = some b ∧ (cls b = .invalid ∨ ((∃ v, cls b = .valid v) ∧ ∃ j, j < i ∧ text[j]? = some 0x3D))

theorem getElem?_cleanText_symbol (syms : List Sym6) (n : Nat) (rest : List Byte) {i : Nat} (hi : i < syms.length) :
    (cleanText syms n ++ rest)[i]? = some (sym syms[i]) := by
  simp [cleanText, List.getElem?_append, hi]

theorem getElem?_cleanText_padding (syms : List Sym6) (n : Nat) (rest : List Byte) {i : Nat}
    (hi : syms.length ≤ i) (hn : i < syms.length + n) : (cleanText syms n ++ rest)[i]? = some paddingByte := by
  have hpad : i - syms.length < n := by omega
  simp [cleanText, List.getElem?_append, Nat.not_lt.2 hi, hpad]

theorem not_offendsAt_of_lt (syms : List Sym6) (n : Nat) (rest : List Byte) {i : Nat} (hi : i < syms.length + n) :
    ¬ OffendsAt (cleanText syms n ++ rest) i := by
  rintro ⟨b, hb, hoff⟩
  by_cases hsym : i < syms.length
  · rw [getElem?_cleanText_symbol syms n rest hsym] at hb
    cases hb
    rcases hoff with hb | ⟨_, j, hj, hpad⟩
    · exact absurd ((cls_sym _).symm.trans hb) nofun
    · rw [getElem?_cleanText_symbol syms n rest (Nat.lt_trans hj hsym)] at hpad
      exact sym_ne_paddingByte _ (Option.some.inj hpad)
  · rw [getElem?_cleanText_padding syms n rest (Nat.le_of_not_lt hsym) hi] at hb
    cases hb
    rcases hoff with hb | ⟨⟨v, hb⟩, _⟩ <;> cases hb

theorem not_offendsAt_cleanText (syms : List Sym6) (n : Nat) (i : Nat) : ¬ OffendsAt (cleanText syms n) i := by
  intro hoff
  have hi : i < syms.length + n := by
    obtain ⟨b, hb, _⟩ := hoff
    rw [← length_cleanText]
    exact (List.getElem?_eq_some_iff.1 hb).1
  exact not_offendsAt_of_lt syms n [] hi (by rwa [List.append_nil])

theorem getElem?_cleanText_append (syms : List Sym6) (n : Nat) (b : Byte) (bs : List Byte) :
    (cleanText syms n ++ b :: bs)[syms.length + n]? = some b := by
  simp

theorem Offends.offendsAt {n : Nat} {b : Byte} {kind : ErrKind} (hb : Offends n b kind) (syms : List Sym6)
    (bs : List Byte) : OffendsAt (cleanText syms n ++ b :: bs) (syms.length + n) := by
  refine ⟨b, getElem?_cleanText_append syms n b bs, ?_⟩
  rcases hb with ⟨hb, _⟩ | ⟨hb, hn, _⟩
  · exact .inl hb
  · exact .inr ⟨hb, syms.length, by omega, getElem?_cleanText_padding syms n _ (Nat.le_refl _) (by omega)⟩

/-- The code of the failure, by the offending byte alone. -/
theorem Offends.code_eq {n : Nat} {b : Byte} {kind : ErrKind} (hb : Offends n b kind) :
    (errCode kind).setWidth 3 = if cls b = .invalid then 1 else 2 := by
  rcases hb with ⟨hb, rfl⟩ | ⟨⟨v, hb⟩, _, rfl⟩ <;> rw [hb] <;> rfl

/-! ## The text of an encode call (R98) -/

/-- The text of an encode call is a clean one, and its symbols hold the input. -/
theorem encodeText_eq_cleanText (bs : List Byte) :
    ∃ syms n, encodeText bs = cleanText syms n ∧ decodeSymbols syms = bs := by
  induction bs using encodeText.induct with
  | case1 => exact ⟨[], 0, rfl, rfl⟩
  | case2 a =>
    refine ⟨[(a ++ 0#4).extractLsb' 6 6, (a ++ 0#4).extractLsb' 0 6], 2, rfl, ?_⟩
    rw [decodeSymbols_two, firstByte]
    congr 1
    ext i hi
    grind
  | case3 a b =>
    refine ⟨[(a ++ b ++ 0#2).extractLsb' 12 6, (a ++ b ++ 0#2).extractLsb' 6 6, (a ++ b ++ 0#2).extractLsb' 0 6], 1,
      rfl, ?_⟩
    have hfirst : firstByte ((a ++ b ++ 0#2).extractLsb' 12 6) ((a ++ b ++ 0#2).extractLsb' 6 6) = a := by
      rw [firstByte]; ext i hi; grind
    have hsecond : secondByte ((a ++ b ++ 0#2).extractLsb' 6 6) ((a ++ b ++ 0#2).extractLsb' 0 6) = b := by
      rw [secondByte]; ext i hi; grind
    rw [decodeSymbols_three, hfirst, hsecond]
  | case4 a b c rest ih =>
    obtain ⟨syms, n, htext, hdec⟩ := ih
    refine ⟨(a ++ b ++ c).extractLsb' 18 6 :: (a ++ b ++ c).extractLsb' 12 6 :: (a ++ b ++ c).extractLsb' 6 6 ::
      (a ++ b ++ c).extractLsb' 0 6 :: syms, n, ?_, ?_⟩
    · rw [encodeText, htext]
      rfl
    · have hfirst : firstByte ((a ++ b ++ c).extractLsb' 18 6) ((a ++ b ++ c).extractLsb' 12 6) = a := by
        rw [firstByte]; ext i hi; grind
      have hsecond : secondByte ((a ++ b ++ c).extractLsb' 12 6) ((a ++ b ++ c).extractLsb' 6 6) = b := by
        rw [secondByte]; ext i hi; grind
      have hthird : thirdByte ((a ++ b ++ c).extractLsb' 6 6) ((a ++ b ++ c).extractLsb' 0 6) = c := by
        rw [thirdByte]; ext i hi; grind
      rw [decodeSymbols_group, hfirst, hsecond, hthird, hdec]
      rfl

/-- Decoding undoes encoding, on the reference functions (R98). -/
theorem decodeSymbols_encodeText (bs : List Byte) : decodeSymbols (symbolsOf (encodeText bs)) = bs := by
  obtain ⟨syms, n, htext, hdec⟩ := encodeText_eq_cleanText bs
  rw [htext, symbolsOf_cleanText, hdec]

theorem callFailure_encodeText (bs : List Byte) : callFailure (encodeText bs) = none := by
  obtain ⟨syms, n, htext, _⟩ := encodeText_eq_cleanText bs
  refine callFailure_eq_none_iff.2 ⟨?_, syms, n, htext⟩
  rw [length_encodeText]
  omega

/-! ## Dropped bits (R96, R97) -/

theorem firstByte_congr (v : Sym6) {w w' : Sym6} (h : w.extractLsb' 4 2 = w'.extractLsb' 4 2) :
    firstByte v w = firstByte v w' := by
  rw [firstByte, firstByte, h]

theorem secondByte_congr (w : Sym6) {x x' : Sym6} (h : x.extractLsb' 2 4 = x'.extractLsb' 2 4) :
    secondByte w x = secondByte w x' := by
  rw [secondByte, secondByte, h]

theorem map_append_eq_cleanText (syms ws : List Sym6) (n : Nat) :
    syms.map sym ++ ws.map sym ++ List.replicate n 0x3D = cleanText (syms ++ ws) n := by
  rw [cleanText, List.map_append]
  rfl

/-- Two last groups of the same length and the same bytes, after the same whole groups, decode alike. -/
theorem Ready.run_lastGroup {s : State} (h : Ready s) {syms : List Sym6} (hg : syms.length % 4 = 0)
    {ws ws' : List Sym6} (hlen : ws'.length = ws.length) (hdec : decodeSymbols ws' = decodeSymbols ws) {n : Nat}
    (hn : (ws.length + n) % 4 = 0) :
    ∃ t t', runCommands (decodeCall (syms.map sym ++ ws.map sym ++ List.replicate n 0x3D)) s = .next t ∧
      runCommands (decodeCall (syms.map sym ++ ws'.map sym ++ List.replicate n 0x3D)) s = .next t' ∧
      t.buf = t'.buf ∧ t.responses = t'.responses ∧
      t.cursor = s.cursor + (3 * (syms.length / 4) + (decodeSymbols ws).length) ∧
      t.responses.getLast? = some ⟨.ok, 0, 3 * (syms.length / 4) + (decodeSymbols ws).length⟩ := by
  have hsyms : (decodeSymbols syms).length = 3 * (syms.length / 4) := by
    rw [length_decodeSymbols, hg]
    rfl
  have hsame : decodeSymbols (syms ++ ws') = decodeSymbols (syms ++ ws) := by
    rw [decodeSymbols_append hg, decodeSymbols_append hg, hdec]
  obtain ⟨t, hrun, ht⟩ := h.run_complete (syms ++ ws) n (by rw [List.length_append]; omega)
  obtain ⟨t', hrun', ht'⟩ := h.run_complete (syms ++ ws') n (by rw [List.length_append]; omega)
  have hcount : (decodeSymbols (syms ++ ws)).length = 3 * (syms.length / 4) + (decodeSymbols ws).length := by
    rw [decodeSymbols_append hg, List.length_append, hsyms]
  rw [map_append_eq_cleanText, map_append_eq_cleanText]
  refine ⟨t, t', hrun, hrun', ?_, ?_, ?_, ?_⟩
  · rw [ht.buf, ht'.buf, hsame]
  · rw [ht.responses, ht'.responses, hsame, List.length_append, List.length_append, hlen]
  · rw [ht.cursor, hcount]
  · rw [ht.getLast?, hcount]
    rfl

/-! ## The statements about whole calls -/

/-- Settles O49: each of the three ways a call ends is the one `callFailure` names. -/
theorem decodeCallResult : Obligations.DecodeCallResult := by
  intro s text h
  obtain ⟨t, hrun, ⟨syms, n, rfl, h4, ht⟩ | ⟨syms, n, rfl, h4, ht⟩ | ⟨syms, n, b, bs, kind, rfl, hb, ht⟩⟩ :=
    h.run_decodeCall text
  · refine ⟨t, hrun, ht.ready, by simp [ht.length_responses], ?_⟩
    rw [callFailure_cleanText, if_pos h4, symbolsOf_cleanText]
    exact ⟨ht.buf, ht.err, ht.getLast?⟩
  · refine ⟨t, hrun, ht.ready, by simp [ht.length_responses], ?_⟩
    rw [callFailure_cleanText, if_neg h4]
    exact ⟨ht.mem, ht.err, ht.getLast?⟩
  · refine ⟨t, hrun, ht.ready, by simp [ht.length_responses], ?_⟩
    rw [callFailure_offends syms bs hb]
    exact ⟨ht.mem, ht.err, ht.getLast?⟩

/-- Settles O50: the first byte that offends is the one after the longest clean text, and every byte before it is
answered OK. -/
theorem decodeCallReportsTheFirstOffence : Obligations.DecodeCallReportsTheFirstOffence := by
  intro s text h
  obtain ⟨t, hrun, ⟨syms, n, rfl, h4, ht⟩ | ⟨syms, n, rfl, h4, ht⟩ | ⟨syms, n, b, bs, kind, rfl, hb, ht⟩⟩ :=
    h.run_decodeCall text
  · refine ⟨t, hrun, fun i hi _ => absurd hi (not_offendsAt_cleanText syms n i), fun _ hlen => ?_,
      fun _ _ => ⟨_, ht.getLast?⟩⟩
    exact absurd (length_cleanText syms n ▸ h4) hlen
  · refine ⟨t, hrun, fun i hi _ => absurd hi (not_offendsAt_cleanText syms n i),
      fun _ _ => ⟨fun k hk => ?_, ht.getLast?⟩, fun _ hlen => absurd (length_cleanText syms n ▸ hlen) h4⟩
    rw [length_cleanText] at hk
    rw [← List.append_nil (cleanAnswers _ _)] at ht
    exact ht.answer_ok hk
  · have hat := hb.offendsAt syms bs
    refine ⟨t, hrun, fun i hi hmin => ?_, fun hno => absurd hat (hno _), fun hno => absurd hat (hno _)⟩
    obtain rfl : i = syms.length + n := by
      rcases Nat.lt_trichotomy i (syms.length + n) with hlt | heq | hgt
      · exact absurd hi (not_offendsAt_of_lt syms n (b :: bs) hlt)
      · exact heq
      · exact absurd hat (hmin _ hgt)
    refine ⟨(errCode kind).setWidth 3, ?_, fun k hk => ht.answer_ok hk, ?_, ht.getLast?⟩
    · rw [getElem?_cleanText_append, hb.code_eq]
      simp
    · refine (ht.answer (by simp)).trans ?_
      simp [failResponse]

/-- Settles O51. -/
theorem decodeCallSucceedsExactlyOn : Obligations.DecodeCallSucceedsExactlyOn := by
  intro s text h
  obtain ⟨t, hrun, _, _, hres⟩ := decodeCallResult s text h
  have hclean : callFailure text = none ↔ text.length % 4 = 0 ∧
      ∃ p q, text = p ++ q ∧ (∀ b ∈ p, b ∈ alphabet) ∧ (∀ b ∈ q, b = 0x3D) := by
    rw [callFailure_eq_none_iff]
    refine and_congr_right fun _ => ⟨fun ⟨syms, n, htext⟩ => ?_, fun ⟨p, q, htext, hp, hq⟩ => ?_⟩
    · exact ⟨_, _, htext, by simp, fun b hb => List.eq_of_mem_replicate hb⟩
    · exact ⟨_, _, htext.trans (append_eq_cleanText hp hq)⟩
  cases hc : callFailure text with
  | none =>
    rw [hc] at hres
    obtain ⟨hbuf, _, hlast⟩ := hres
    refine ⟨t, _, hrun, hlast, iff_of_true rfl (hclean.1 hc), fun p q htext hp hq _ => ?_⟩
    rw [hbuf, htext, append_eq_cleanText hp hq, symbolsOf_cleanText]
  | some kind =>
    rw [hc] at hres
    obtain ⟨_, _, hlast⟩ := hres
    have hno := fun hyes => Option.some_ne_none kind (hc.symm.trans (hclean.2 hyes))
    exact ⟨t, _, hrun, hlast, iff_of_false nofun hno,
      fun p q htext hp hq hlen => absurd ⟨hlen, p, q, htext, hp, hq⟩ hno⟩

/-- Settles O52. -/
theorem decodeCallCount : Obligations.DecodeCallCount := by
  intro s text h hc
  obtain ⟨t, hrun, _, _, hres⟩ := decodeCallResult s text h
  rw [hc] at hres
  obtain ⟨hbuf, _, hlast⟩ := hres
  refine ⟨t, hrun, ?_, ?_⟩
  · rw [← length_decodeSymbols]
    simpa [State.buf] using congrArg List.length hbuf
  · rw [← length_decodeSymbols, hlast]

/-- Settles O53: the text of an encode call is clean, of whole groups, and its symbols hold the input. -/
theorem decodeOfEncodeIsTheInput : Obligations.DecodeOfEncodeIsTheInput := by
  refine ⟨fun s bs h => ?_, by decide⟩
  obtain ⟨t, hrun, ht, hbuf, _⟩ := encodeCallAppendsTheText s bs h
  obtain ⟨u, hrun', _, _, hres⟩ := decodeCallResult t (encodeText bs) ht
  rw [callFailure_encodeText, decodeSymbols_encodeText] at hres
  obtain ⟨hbuf', _, hlast⟩ := hres
  exact ⟨t, u, hrun, hbuf, hrun', hbuf', hlast⟩

/-- Settles O54: the bytes of a group do not read the bits it drops, and padding adds none. -/
theorem droppedBitsAreNotChecked : Obligations.DroppedBitsAreNotChecked := by
  intro s p h hp
  obtain ⟨syms, rfl⟩ := exists_eq_map_sym hp
  refine ⟨fun hg => ?_, fun n n' hn hn' => ?_⟩
  · rw [List.length_map] at hg ⊢
    refine ⟨fun v w w' n hn hw => ?_, fun v w x x' n hn hx => ?_, fun v v' n hn => ?_⟩
    · have hdec : decodeSymbols [v, w'] = decodeSymbols [v, w] := by
        rw [decodeSymbols_two, decodeSymbols_two, firstByte_congr v hw]
      exact h.run_lastGroup hg (ws := [v, w]) (ws' := [v, w']) rfl hdec (by simp; omega)
    · have hdec : decodeSymbols [v, w, x'] = decodeSymbols [v, w, x] := by
        rw [decodeSymbols_three, decodeSymbols_three, secondByte_congr w hx]
      exact h.run_lastGroup hg (ws := [v, w, x]) (ws' := [v, w, x']) rfl hdec (by simp; omega)
    · exact h.run_lastGroup hg (ws := [v]) (ws' := [v']) rfl rfl (by simp; omega)
  · rw [List.length_map] at hn hn'
    obtain ⟨t, hrun, ht⟩ := h.run_complete syms n hn
    obtain ⟨t', hrun', ht'⟩ := h.run_complete syms n' hn'
    exact ⟨t, t', (decodeSymbols syms).length, hrun, hrun', ht.buf.trans ht'.buf.symm, ht.getLast?, ht'.getLast?⟩

end Sys2Proof.Machine
end

section
/-!
PROOFS. The status family (43_status.md): STATUS behind its checks, and the fields of the status word.
-/
namespace Sys2Proof.Machine

/-! ## The fields of the status word (R100) -/

/-- Each field of the status word holds its register's code. A field is read by skipping the fields below it. -/
theorem statusWord_fields (s : State) :
    (statusWord s).extractLsb' 0 2 = modeCode s.mode ∧
    (statusWord s).extractLsb' 2 2 = errCode s.err ∧
    (statusWord s).extractLsb' 4 1 = BitVec.ofBool s.fault ∧
    (statusWord s).extractLsb' 5 3 = causeCode s.faultCause ∧
    (statusWord s).extractLsb' 8 2 = BitVec.ofNat 2 s.encPhase.val ∧
    (statusWord s).extractLsb' 10 2 = BitVec.ofNat 2 s.decPhase.val ∧
    (statusWord s).extractLsb' 12 1 = padSeen s ∧
    (statusWord s).extractLsb' 13 2 = padMod4 s ∧
    (statusWord s).extractLsb' 15 1 = 0#1 := by
  simp (disch := decide) only [statusWord, BitVec.extractLsb'_append_eq_of_le, BitVec.extractLsb'_append_eq_right,
    BitVec.extractLsb'_eq_self, Nat.reduceSub, and_self]

/-- Two bits hold a phase that counts modulo at most 4 (R19, R21). -/
theorem toNat_ofNat_phase {n : Nat} (h : n ≤ 4) (p : Fin n) : (BitVec.ofNat 2 p.val).toNat = p.val :=
  (BitVec.toNat_ofNat _ _).trans (Nat.mod_eq_of_lt (Nat.lt_of_lt_of_le p.isLt h))

theorem toNat_padSeen (s : State) : (padSeen s).toNat = if s.decPad = 0 then 0 else 1 :=
  apply_ite BitVec.toNat _ _ _

theorem toNat_padMod4 (s : State) : (padMod4 s).toNat = s.decPad % 4 :=
  (BitVec.toNat_ofNat _ _).trans (Nat.mod_mod _ _)

/-! ## STATUS (R99) -/

/-- STATUS with operand 0 answers the status word in every state, faulted or not (R99). -/
theorem exec_status_zero (s : State) : exec (.status 0) s = .next (s.respond (okResponse (statusWord s).toNat)) := by
  rw [exec_eq_gate, gate_status]
  rfl

/-- STATUS with a nonzero operand does not execute while faulted (R109). -/
theorem exec_status_faulted {s : State} {x : Byte} (hx : x ≠ 0) (hf : s.fault = true) :
    exec (.status x) s = .next s.answerFaulted := by
  rw [exec_eq_gate]
  exact gate_faulted _ hf (beq_false_of_ne hx)

/-- Settles O31: `gate_status` lets operand 0 through whatever FAULT is, a nonzero operand meets the operand's check
or the recorded fault, and each field of the word is a code read back as a number. -/
theorem statusReadsTheStatusWord : Obligations.StatusReadsTheStatusWord := by
  intro s
  obtain ⟨hmode, herr, hfault, hcause, henc, hdec, hseen, hmod, htop⟩ := statusWord_fields s
  rw [hmode, herr, hfault, hcause, henc, hdec, hseen, hmod, htop]
  refine ⟨exec_status_zero s, fun _ hx hf => exec_reservedOperand hf rfl rfl hx,
    fun _ hx hf => exec_status_faulted hx hf, ?_, ?_, ?_, ?_, toNat_ofNat_phase (by decide) _,
    toNat_ofNat_phase (by decide) _, toNat_padSeen s, toNat_padMod4 s, rfl⟩
  · cases s.mode <;> rfl
  · cases s.err <;> rfl
  · cases s.fault <;> rfl
  · cases s.faultCause <;> rfl

end Sys2Proof.Machine
end

section
/-!
PROOFS. The exceptions family (60_exceptions.md): what a faulted block answers, that no step but a reset takes the fault
back, and that a block with nothing to do waits.
-/
namespace Sys2Proof.Machine

/-! ## The fault registers under a step (R109, R110) -/

section
variable {s t : State} {rest : List HostEvent}

/-- A held command that goes on leaves the fault registers alone, whether it completes or holds again (R47). -/
theorem fault_resume (hd : Hold) (s : State) :
    (resume hd s).fault = s.fault ∧ (resume hd s).faultCause = s.faultCause := by
  unfold resume
  rcases appendFrom_cases hd (heldDone hd.cmd) { s with hold := none } with e | ⟨pre, v, left, _, _, e⟩
  · rw [e, (heldDone_frame hd.cmd _).2, State.appended_frame]
    exact ⟨rfl, rfl⟩
  · rw [e, State.appended_frame]
    exact ⟨rfl, rfl⟩

/-- The block left alone leaves the fault registers alone (R119). -/
theorem fault_runHeld (s : State) : (runHeld s).fault = s.fault ∧ (runHeld s).faultCause = s.faultCause := by
  rcases runHeld_cases s with ⟨_, e⟩ | ⟨hd, _, e⟩ <;> rw [e]
  · exact ⟨rfl, rfl⟩
  · exact fault_resume hd s

/-- The word 0x3000 answers the status word in every state, faulted or not (R99, R109). -/
theorem step_status (hn : s.hold = none) (hs : s.script = .command 0x3000 :: rest) :
    step s = .next (State.respond { s with script := rest } (okResponse (statusWord s).toNat)) := by
  rw [step_of_decode hn hs (decode_encode (.status 0)), exec_status_zero]
  rfl

/-- A faulted block that takes a command word delivers a response and does nothing else (R109). -/
theorem step_command_of_fault {w : Word} (hf : s.fault = true) (hn : s.hold = none)
    (hs : s.script = .command w :: rest) : ∃ r, step s = .next (State.respond { s with script := rest } r) := by
  by_cases hw : w = 0x3000
  · subst hw
    exact ⟨_, step_status hn hs⟩
  · exact ⟨_, step_of_fault hf hn hs hw⟩

/-- Only a reset changes the fault registers of a faulted block (R109). -/
theorem step_keeps_fault (hf : s.fault = true) (h : step s = .next t) (hr : ∀ rest, s.script ≠ .reset :: rest) :
    t.fault = s.fault ∧ t.faultCause = s.faultCause := by
  rcases step_cases h with ⟨_, _, rfl⟩ | ⟨hd, _, rfl, _⟩ | ⟨rest, _, rfl⟩ | ⟨rest, hs, _⟩ | ⟨c, rest, _, rfl⟩ |
    ⟨bs, rest, _, _, _, rfl⟩ | ⟨w, rest, hs, hn, _⟩
  · exact ⟨rfl, rfl⟩
  · exact fault_resume hd s
  · exact fault_runHeld { s with script := rest }
  · exact absurd hs (hr rest)
  · exact ⟨rfl, rfl⟩
  · exact ⟨rfl, rfl⟩
  · obtain ⟨r, e⟩ := step_command_of_fault hf hn hs
    rw [e] at h
    cases h
    exact ⟨rfl, rfl⟩

end

/-! ## The block left alone (R119) -/

/-- With nothing at the port the block is left alone (R119). -/
theorem step_idle {s : State} (h : s.script = []) : step s = .next (runHeld s) := by
  simp only [step, advance, h]

/-- The block left alone with no command held stays as it is (R119). -/
theorem runHeld_of_not_held {s : State} (hn : s.hold = none) : runHeld s = s := by
  simp only [runHeld, hn]

/-! ## The statements -/

/-- Settles O3: the recorded fault answers every word but 0x3000, and only a reset writes the fault registers of a
faulted block. -/
theorem faultedBlockAnswersAndChangesNothing : Obligations.FaultedBlockAnswersAndChangesNothing := by
  intro s hf
  refine ⟨fun w rest hn hs => ⟨step_of_fault hf hn hs, ?_⟩, fun t h hr => ?_, fun hw => ?_⟩
  · rintro rfl
    exact step_status hn hs
  · obtain ⟨hfault, hcause⟩ := step_keeps_fault hf h hr
    exact ⟨hfault.trans hf, hcause⟩
  · exact Bool.false_ne_true (hw.fault.symm.trans hf)

/-- Settles O32: in both cases the step is `runHeld`, and no command is held. -/
theorem blockWaitsWithItsStateHeld : Obligations.BlockWaitsWithItsStateHeld := by
  refine fun s hn => ⟨fun hs => ?_, fun rest hs => ?_⟩
  · rw [step_idle hs, runHeld_of_not_held hn]
  · rw [step_wait hs, runHeld_of_not_held (s := { s with script := rest }) hn]

end Sys2Proof.Machine
end

section
/-!
PROOFS. The reset and hazards family (70_reset_and_hazards.md): the launch states meet the invariant, and what the
invariant excludes leaves the host's breach of R125 as the one step with no meaning.
-/
namespace Sys2Proof.Machine

/-! ## The launch state (R133) -/

/-- Settles O39: a launch state is the reset state but for a Buffer in canonical form and the port, and no clause of
`Inv` about a call or a held command applies to it. -/
theorem launchStateMeetsTheInvariant : Obligations.LaunchStateMeetsTheInvariant := fun buf _ =>
  ⟨{ resetStateMeetsTheInvariant with
      mem_wf := Memory.wf_ofBytes buf
      dec_cursor := nofun
      failed_cursor := nofun
      hold_bytes := nofun },
    Memory.bytes_ofBytes buf⟩

/-! ## What the invariant excludes (R35, R47, R72) -/

section
variable {s : State}

/-- A command that appends belongs to an open call (R75, R79, R89). -/
theorem HeldCmd.mode_ne_idle {c : HeldCmd} (h : c.mayRun s) : s.mode ≠ .idle := by
  rw [h.2]; cases c <;> nofun

/-- Between calls no command is held (R47). -/
theorem Inv.hold_eq_none_of_idle (h : Inv s) (hm : s.mode = .idle) : s.hold = none :=
  Option.eq_none_iff_forall_ne_some.2 fun _ hh => HeldCmd.mode_ne_idle (h.mayRun_of_hold hh) hm

/-- No command is refused: the stash meets the precondition of `sym` (R72), and MARK is a mark of the Buffer (R35). -/
theorem Inv.exec_ne_refused (h : Inv s) (i : Instr) (r : Refusal) : exec i s ≠ .refused r := fun he => by
  obtain ⟨_, ⟨_, _, _, hstash, _⟩ | ⟨_, hm, hmark, _⟩⟩ := (onlyTheseStatesRefuseACommand s i r).1 he
  · exact absurd h.stash_lt (Nat.not_lt.2 hstash)
  · rw [h.dec_cursor hm] at hmark
    omega

/-- Every command answers a next state: none is refused, and there is no fault to end in (R102). -/
theorem Inv.exists_exec_next (h : Inv s) (i : Instr) : ∃ t, exec i s = .next t := by
  cases he : exec i s with
  | next t => exact ⟨t, rfl⟩
  | fault r => cases r
  | refused r => exact absurd he (h.exec_ne_refused i r)

/-- Every command word, legal or not, is answered with a next state (R51, R59). -/
theorem Inv.exists_acceptWord_next (h : Inv s) (w : Word) : ∃ t, acceptWord w s = .next t := by
  rcases acceptWord_cases w s with ⟨_, e⟩ | ⟨i, _, e⟩ <;> rw [e]
  · exact ⟨_, rfl⟩
  · exact h.exists_exec_next i

end

/-! ## The statement -/

/-- Settles O41: of the things the port may have next, only a rewrite of the Buffer is ever refused, and in MODE IDLE
no command is held that could stand against it. -/
theorem onlyTheHostCanEndARun : Obligations.OnlyTheHostCanEndARun := by
  intro s h
  cases hs : s.script with
  | nil => exact .inl ⟨_, step_idle hs⟩
  | cons e rest =>
    cases e with
    | command w =>
      cases hh : s.hold with
      | some hd => exact .inl ⟨_, step_of_held hh (.inr ⟨w, rest, hs⟩)⟩
      | none => exact .inl (step_command hh hs ▸ h.with_unread.exists_acceptWord_next w)
    | reset => exact .inl ⟨_, step_reset hs⟩
    | wait => exact .inl ⟨_, step_wait hs⟩
    | putBuffer bs =>
      obtain ⟨hput, hrefused⟩ := hostOwnsTheBufferBetweenCalls s bs rest hs
      by_cases hm : s.mode = .idle
      · obtain ⟨t, ht, _⟩ := hput hm (h.hold_eq_none_of_idle hm)
        exact .inl ⟨t, ht⟩
      · exact .inr ⟨bs, rest, rfl, hm, hrefused hm⟩
    | setCapacity c => exact .inl ⟨_, step_setCapacity hs⟩

end Sys2Proof.Machine
end
